-- ==== Sys2Proof/Word.lean ====
section
/-! DEFINITION. The widths of the machine (spec/00_scope.md R6, R7; spec/30_encoding.md R81).
`W = 32` and `OPW = 8`, the spec's values (decisions D1, D6); that the model does not take `W` as an
argument is log 1. A `Word` is read by its signed value, `BitVec.toInt` (the `s(v)` of R8), unless a
rule says `u(v)`, which is `BitVec.toNat`. -/

namespace Sys2Proof

/-- Accumulator, program counter, cache tag, operand field, data cell: `W` bits (R7). -/
abbrev Word := BitVec 32

/-- The opcode field: `OPW` bits (R81). -/
abbrev Opcode := BitVec 8

/-- One word of program memory, `{opcode, operand}`: `OPW + W` bits (R81). -/
abbrev InsnWord := BitVec 40

end Sys2Proof
end

