-- ==== Sys2Proof/Config.lean ====
section
/-! DEFINITION. The parameters of the hardware (spec/00_scope.md R6), the bounds on them, and the
constants without a body that stand for what the spec leaves open. -/

namespace Sys2Proof

/-- The parameters of R6 that the host fixes before reset, but for the program and its length, which
are `State.prog`. They are carried in State and no step writes them (log 2). -/
structure Params where
  /-- `MEMSIZE`, the number of data-memory cells. -/
  memSize : Nat
  /-- `PREFETCH_EN`, whether the prefetch runs in each cycle. -/
  prefetchEn : Bool
  /-- `FETCH_TIME`, the latency of every fetch. -/
  fetchTime : Nat
  /-- `MISS_PENALTY`, the extra latency of a fetch that misses. -/
  missPenalty : Nat
  /-- `PREFETCH_TIME`, the latency of every prefetch. -/
  prefetchTime : Nat
  deriving DecidableEq, Repr

/-- The largest legal `MEMSIZE`, `2^(W-1)` (R6, D23). -/
def Config.maxMemSize : Nat := 2 ^ 31

/-- The largest legal program length, `2^(W-1) - 1` (R6, D17). -/
def Config.maxProgLen : Nat := 2 ^ 31 - 1

/-- `FETCH_TIME` where nobody configures it: the spec gives no value (R6, R220, D14; log 10). -/
opaque Config.fetchTime : Nat

/-- `MISS_PENALTY` where nobody configures it (R6, R220, D14; log 10). -/
opaque Config.missPenalty : Nat

/-- `PREFETCH_TIME` where nobody configures it (R6, R220, D14; log 10). -/
opaque Config.prefetchTime : Nat

/-- The parameters `State.reset` carries: the defaults of R6, `MEMSIZE = 100` and `PREFETCH_EN` false,
and latencies of which nothing is known (log 10). -/
def Params.default : Params where
  memSize := 100
  prefetchEn := false
  fetchTime := Config.fetchTime
  missPenalty := Config.missPenalty
  prefetchTime := Config.prefetchTime

/-- Free value: `fault.addr` where R241 calls it undefined (DivisionByZero, UnknownOpcode); log 6. -/
opaque Config.undefinedAddr : Nat → Word

/-- Free value: `fault.opcode` where R241 calls it undefined (ProgramBoundsError); log 6. -/
opaque Config.undefinedOpcode : Nat → Opcode

end Sys2Proof
end

