-- ==== Sys2Proof/Syntax.lean ====
section
/-! DEFINITION. The syntax of instructions: the closed set of 22 opcodes with their one operand
(spec/30_encoding.md R80, R83, R84), and the two external spellings the spec gives an instruction, the
text record of R89 and the assembly line of R91. -/

namespace Sys2Proof

/-- An instruction: one constructor per row of the opcode map R84, in the map's order, each with the raw
operand `k` (R80: every instruction has exactly one operand, also those that make no use of it). -/
inductive Instr where
  | nop (k : Word)
  | mov (k : Word)
  | add (k : Word)
  | sub (k : Word)
  | mul (k : Word)
  | div (k : Word)
  | and (k : Word)
  | or (k : Word)
  | not (k : Word)
  | band (k : Word)
  | bor (k : Word)
  | bxor (k : Word)
  | rotl (k : Word)
  | rotr (k : Word)
  | bnot (k : Word)
  | jmp (k : Word)
  | jpz (k : Word)
  | jpn (k : Word)
  | sav (k : Word)
  | lod (k : Word)
  | hlt (k : Word)
  | adr (k : Word)
  deriving DecidableEq, Repr

/-- The raw operand `k` of an instruction (R80, R82). -/
def Instr.operand : Instr → Word
  | .nop k | .mov k | .add k | .sub k | .mul k | .div k | .and k | .or k | .not k | .band k | .bor k
  | .bxor k | .rotl k | .rotr k | .bnot k | .jmp k | .jpz k | .jpn k | .sav k | .lod k | .hlt k
  | .adr k => k

/-- The mnemonics of R84. -/
def Instr.mnemonic : Instr → String
  | .nop _ => "NOP"
  | .mov _ => "MOV"
  | .add _ => "ADD"
  | .sub _ => "SUB"
  | .mul _ => "MUL"
  | .div _ => "DIV"
  | .and _ => "AND"
  | .or _ => "OR"
  | .not _ => "NOT"
  | .band _ => "BAND"
  | .bor _ => "BOR"
  | .bxor _ => "BXOR"
  | .rotl _ => "ROTL"
  | .rotr _ => "ROTR"
  | .bnot _ => "BNOT"
  | .jmp _ => "JMP"
  | .jpz _ => "JPZ"
  | .jpn _ => "JPN"
  | .sav _ => "SAV"
  | .lod _ => "LOD"
  | .hlt _ => "HLT"
  | .adr _ => "ADR"

/-- The assembly line of R91: the mnemonic and the operand in decimal, always written. -/
def Instr.assembly (i : Instr) : String :=
  i.mnemonic ++ " " ++ toString i.operand.toInt

/-- A text record of R89, `opcode operand`: two integers, of any size until `Record.wf` has checked
them. -/
structure Record where
  opcode : Int
  operand : Int
  deriving DecidableEq, Repr

end Sys2Proof
end

