-- ==== Sys2Proof/WellFormed.lean ====
section
/-! DEFINITION. The checks on what reaches the machine from outside. A term of `Instr` needs none: its
operand is a `W`-bit value and every such value is admitted for every opcode (spec/30_encoding.md R87).
What can be ill-formed is a text record (R90) and a configuration (spec/00_scope.md R6). -/

namespace Sys2Proof

/-- The opcode of a record fits the opcode field, `[0, 2^OPW - 1]` (R90). -/
def Record.opcodeOk (r : Record) : Bool :=
  decide (0 ≤ r.opcode) && decide (r.opcode ≤ 255)

/-- The operand of a record fits the operand field, `[-2^(W-1), 2^(W-1) - 1]` (R90). -/
def Record.operandOk (r : Record) : Bool :=
  decide (-(2 ^ 31) ≤ r.operand) && decide (r.operand ≤ 2 ^ 31 - 1)

/-- A record that has a binary word (R90). Its opcode need not be one of the 22: that is found when the
word is dispatched, and not before (R86). -/
def Record.wf (r : Record) : Bool :=
  r.opcodeOk && r.operandOk

/-- `1 <= MEMSIZE <= 2^(W-1)` (R6, D23). -/
def Params.wf (p : Params) : Bool :=
  decide (1 ≤ p.memSize) && decide (p.memSize ≤ Config.maxMemSize)

/-- `0 <= N <= 2^(W-1) - 1` (R6, D17). -/
def progLenOk (n : Nat) : Bool :=
  decide (n ≤ Config.maxProgLen)

end Sys2Proof
end

