-- ==== Sys2Proof/Decode.lean ====
section
/-! DEFINITION. Decoding and encoding of instruction words (spec/30_encoding.md R81, R82, R84, R86) and
of text records (R89, R90). -/

namespace Sys2Proof

/-- `op = zext(word[W+OPW-1 : W])` (R82). -/
def InsnWord.opcode (w : InsnWord) : Opcode :=
  w.extractLsb' 32 8

/-- `k = sext_W(word[W-1 : 0])` (R82): the whole operand field; its signed reading is `toInt`. -/
def InsnWord.operand (w : InsnWord) : Word :=
  w.extractLsb' 0 32

/-- Why a word is no instruction: its opcode has no row in the map of R84 (R86). -/
inductive DecodeError where
  /-- Raised by `decode` for the opcodes 22 to 255. Safe: the machine raises UnknownOpcode (R103). -/
  | unknownOpcode (op : Opcode)
  deriving DecidableEq, Repr

/-- The opcode map of R84, read from the word: only the opcode field selects the instruction. -/
def decode (w : InsnWord) : Except DecodeError Instr :=
  match (InsnWord.opcode w).toNat with
  | 0 => .ok (.nop (InsnWord.operand w))
  | 1 => .ok (.mov (InsnWord.operand w))
  | 2 => .ok (.add (InsnWord.operand w))
  | 3 => .ok (.sub (InsnWord.operand w))
  | 4 => .ok (.mul (InsnWord.operand w))
  | 5 => .ok (.div (InsnWord.operand w))
  | 6 => .ok (.and (InsnWord.operand w))
  | 7 => .ok (.or (InsnWord.operand w))
  | 8 => .ok (.not (InsnWord.operand w))
  | 9 => .ok (.band (InsnWord.operand w))
  | 10 => .ok (.bor (InsnWord.operand w))
  | 11 => .ok (.bxor (InsnWord.operand w))
  | 12 => .ok (.rotl (InsnWord.operand w))
  | 13 => .ok (.rotr (InsnWord.operand w))
  | 14 => .ok (.bnot (InsnWord.operand w))
  | 15 => .ok (.jmp (InsnWord.operand w))
  | 16 => .ok (.jpz (InsnWord.operand w))
  | 17 => .ok (.jpn (InsnWord.operand w))
  | 18 => .ok (.sav (InsnWord.operand w))
  | 19 => .ok (.lod (InsnWord.operand w))
  | 20 => .ok (.hlt (InsnWord.operand w))
  | 21 => .ok (.adr (InsnWord.operand w))
  | _ => .error (.unknownOpcode (InsnWord.opcode w))

/-- The opcode numbers of R84. -/
def Instr.opcode : Instr → Opcode
  | .nop _ => 0
  | .mov _ => 1
  | .add _ => 2
  | .sub _ => 3
  | .mul _ => 4
  | .div _ => 5
  | .and _ => 6
  | .or _ => 7
  | .not _ => 8
  | .band _ => 9
  | .bor _ => 10
  | .bxor _ => 11
  | .rotl _ => 12
  | .rotr _ => 13
  | .bnot _ => 14
  | .jmp _ => 15
  | .jpz _ => 16
  | .jpn _ => 17
  | .sav _ => 18
  | .lod _ => 19
  | .hlt _ => 20
  | .adr _ => 21

/-- `word = {opcode, operand}` (R81), the opcode in the more significant bits. -/
def insnWord (op : Opcode) (k : Word) : InsnWord :=
  op ++ k

/-- The word of an instruction (R81, R84). -/
def encode (i : Instr) : InsnWord :=
  insnWord i.opcode i.operand

/-- The text record of an instruction (R89). -/
def Instr.toRecord (i : Instr) : Record where
  opcode := (i.opcode.toNat : Int)
  operand := i.operand.toInt

/-- The word of a text record, `{opcode, u(operand)}`; none where the record fits no word: it is refused
rather than truncated (R90). -/
def Record.toWord (r : Record) : Option InsnWord :=
  if r.wf then some (insnWord (BitVec.ofInt 8 r.opcode) (BitVec.ofInt 32 r.operand)) else none

/-- What the decoder reads from an instruction whose table bits are `w`. The table's number of a row is
the 40-bit word of R81 itself, bit 0 its least significant bit; a bit above `nbits` is 0. -/
def decodeTableWord (nbits w : Nat) : Option Instr :=
  match decode (BitVec.ofNat 40 (w % 2 ^ nbits)) with
  | .ok i => some i
  | .error _ => none

end Sys2Proof
end

