-- ==== Sys2Proof/Machine/State.lean ====
section
/-! DEFINITION. The state of the machine (spec/10_state.md R20 to R38), the reasons a step can stop, and
reset (spec/70_reset_and_hazards.md R280). -/

namespace Sys2Proof.Machine

/-- The data memory (R34; spec/20_memory.md R50): the cells whose value is not 0, by address, addresses
strictly rising (`Memory.wf`). A cell that is not listed holds 0, its reset value. The unit is the cell:
the spec has no bytes (R59; log 11). -/
abbrev Memory := List (Nat × Word)

/-- The run state (R27). -/
inductive RunState where
  /-- The loop takes steps. -/
  | running
  /-- The loop has observed `pc = -1`. Terminal and final. -/
  | halted
  /-- A fatal error was raised. Terminal and never final. -/
  | faulted
  deriving DecidableEq, Repr

/-- `fault.code` (R28, R36; the codes of spec/60_exceptions.md R241). -/
inductive FaultCode where
  | none
  | memoryAccessError
  | programBoundsError
  | divisionByZero
  | unknownOpcode
  deriving DecidableEq, Repr

/-- The fault record (R28). Meaningless while `run` is not FAULTED. -/
structure FaultRecord where
  code : FaultCode
  pc : Word
  addr : Word
  opcode : Opcode
  deriving DecidableEq, Repr

/-- The one instruction cache line (R30). `tag` and `insn` are meaningless while `valid` is false. -/
structure CacheLine where
  valid : Bool
  tag : Word
  insn : InsnWord
  deriving DecidableEq, Repr

/-- The four fatal errors as a rule raises them (R10, R241). -/
inductive FatalError where
  /-- Raised by operand resolution in indirect mode, by SAV and by LOD (R242). -/
  | memoryAccessError (addr : Word)
  /-- Raised by the fetch, on a miss (R243). -/
  | programBoundsError (addr : Word)
  /-- Raised by DIV (R244). -/
  | divisionByZero
  /-- Raised at dispatch (R245). -/
  | unknownOpcode
  deriving DecidableEq, Repr

/-- All the state the spec gives the machine (R9, R20 to R38), the program and the parameters fixed
before reset (R35, R6; log 2), and one field of the model's own. -/
structure State where
  /-- The accumulator (R20). -/
  acc : Word
  /-- The program counter (R22). -/
  pc : Word
  /-- The addressing-mode bit: false is direct, true is indirect (R26). -/
  ind : Bool
  /-- The data memory (R34). -/
  mem : Memory
  /-- The run state (R27). -/
  run : RunState
  /-- The fault record (R28). -/
  fault : FaultRecord
  /-- The cache line (R30). -/
  cl : CacheLine
  /-- The latency total (R33). -/
  lat : Nat
  /-- The program memory (R35; spec/20_memory.md R56); `N` is its length. No step writes it. -/
  prog : List InsnWord
  /-- The parameters (R6). No step writes them. -/
  cfg : Params
  /-- The model's own: indexes the free values of the fault record; `raise` reads and advances it
  (log 6). -/
  freeIx : Nat
  deriving DecidableEq, Repr

/-- Why a step stops. Both are states in which the spec gives the machine no step (spec/40_execution_cycle.md
R100; log 8); neither is one of the four errors, which are taken as next states (log 7). -/
inductive Fault where
  /-- Raised by `step` in HALTED, where the run has ended (R202). Safe: the spec gives no next state. -/
  | noStepHalted
  /-- Raised by `step` in FAULTED, where the run was aborted (R251). Safe: the spec gives no next state. -/
  | noStepFaulted
  deriving DecidableEq, Repr

/-- Why a step is given no meaning. -/
inductive Refusal where
  /-- Raised by an arm of `exec` whose instruction has no meaning yet; no arm does. Safe. -/
  | notModelled (mnemonic : String)
  /-- Raised by `step` under a configuration outside the bounds of R6, which the spec says is refused
  (log 9). Safe. -/
  | illegalConfiguration
  deriving DecidableEq, Repr

/-- What a step or a meaning answers. -/
abbrev StepResult := Host.Outcome State Fault Refusal

/-- The state after reset of a machine that the host has given the parameters `cfg` and the program
`prog` (R38, R280, R284). `cl.tag`, `cl.insn` (log 4), `fault.pc`, `fault.addr`, `fault.opcode` (log 5)
and `freeIx` (log 6) have no reset value in the spec: 0, DESIGN CHOICE. -/
def State.resetWith (cfg : Params) (prog : List InsnWord) : State where
  acc := 0
  pc := 0
  ind := false
  mem := []
  run := .running
  fault := { code := .none, pc := 0, addr := 0, opcode := 0 }
  cl := { valid := false, tag := 0, insn := 0 }
  lat := 0
  prog := prog
  cfg := cfg
  freeIx := 0

/-- The machine right after reset with the default parameters and no program loaded (R38; logs 3, 10). -/
def State.reset : State :=
  State.resetWith Params.default []

end Sys2Proof.Machine
end

