-- ==== Sys2Proof/Machine/Ops.lean ====
section
/-! DEFINITION. The named operations of the machine: the integer notation of spec/00_scope.md R8, the data
memory and the program memory (spec/20_memory.md), the named updates of State, and taking a fatal error
(spec/60_exceptions.md R250). There is no return from one (R251, R253), so none stands beside it. -/

namespace Sys2Proof.Machine

/-! ## Integers (R8) -/

/-- `wrap(z)`: the `W`-bit value congruent to `z` modulo `2^W`. -/
def wrap (z : Int) : Word :=
  BitVec.ofInt 32 z

/-- `tdiv(a, y)`: the quotient rounded toward zero, `sign(a) * sign(y) * floor(|a| / |y|)`. -/
def tdiv (a y : Int) : Int :=
  a.sign * y.sign * ((a.natAbs / y.natAbs : Nat) : Int)

/-- `0 <= addr < size`, by the signed reading of the address (R50, D16). -/
def inBounds (addr : Word) (size : Nat) : Bool :=
  decide (0 ≤ addr.toInt) && decide (addr.toInt < (size : Int))

/-! ## The data memory as a canonical list of cells -/

/-- The value of cell `a`: 0 where the list does not name it (R34, R63). -/
def Memory.read : Memory → Nat → Word
  | [], _ => 0#32
  | (b, v) :: m, a => if a = b then v else Memory.read m a

/-- Cell `a` set to `v`, every other cell as before. The form is kept: writing 0 removes the entry. -/
def Memory.write : Memory → Nat → Word → Memory
  | [], a, v => if v = 0#32 then [] else [(a, v)]
  | (b, u) :: m, a, v =>
    if a < b then (if v = 0#32 then (b, u) :: m else (a, v) :: (b, u) :: m)
    else if a = b then (if v = 0#32 then m else (a, v) :: m)
    else (b, u) :: Memory.write m a v

/-- Addresses strictly rising from `lo` on, and no entry 0. -/
def Memory.wfFrom : Nat → Memory → Bool
  | _, [] => true
  | lo, (a, v) :: m => decide (lo ≤ a) && decide (v ≠ 0#32) && Memory.wfFrom (a + 1) m

/-- The canonical form. -/
def Memory.wf (m : Memory) : Bool :=
  Memory.wfFrom 0 m

/-- No entry at or above address `n`. -/
def Memory.below (n : Nat) (m : Memory) : Bool :=
  m.all fun c => decide (c.1 < n)

/-! ## Named updates of State -/

/-- The post-processing of every instruction: `acc <- a'`, `pc <- wrap(t + 1)`
(spec/40_execution_cycle.md R106, R109). -/
def State.commit (s : State) (a' t : Word) : State :=
  { s with acc := a', pc := wrap (t.toInt + 1) }

/-- The data memory replaced (SAV's write, R53). -/
def State.setMem (s : State) (m : Memory) : State :=
  { s with mem := m }

/-- `ind <- 1 - ind` (spec/47_system.md R203). -/
def State.toggleInd (s : State) : State :=
  { s with ind := !s.ind }

/-- `Delay(t)`: `lat <- lat + t` (spec/48_fetch_prefetch.md R220). -/
def State.delay (s : State) (t : Nat) : State :=
  { s with lat := s.lat + t }

/-- `cl <- (valid = 1, tag, insn)` (R210, R214). -/
def State.fillLine (s : State) (tag : Word) (insn : InsnWord) : State :=
  { s with cl := { valid := true, tag := tag, insn := insn } }

/-- `run <- HALTED` (R101). -/
def State.halt (s : State) : State :=
  { s with run := .halted }

/-! ## Fatal errors -/

/-- The code of an error (R241). -/
def FatalError.code : FatalError → FaultCode
  | .memoryAccessError _ => .memoryAccessError
  | .programBoundsError _ => .programBoundsError
  | .divisionByZero => .divisionByZero
  | .unknownOpcode => .unknownOpcode

/-- The failing address of an error; none where R241 calls `fault.addr` undefined. -/
def FatalError.addr? : FatalError → Option Word
  | .memoryAccessError a => some a
  | .programBoundsError a => some a
  | .divisionByZero => none
  | .unknownOpcode => none

/-- `raise E(info)` (R250): `run <- FAULTED`, the record of R241 is written, and nothing else of the
machine's state. `op?` is the opcode of the instruction the step obtained, none where it obtained none
(ProgramBoundsError). A field that R241 calls undefined takes a free value (log 6). That the error is a
next state of the machine is log 7. -/
def State.raise (s : State) (e : FatalError) (op? : Option Opcode) : State :=
  { s with
    run := .faulted
    fault :=
      { code := e.code
        pc := s.pc
        addr := e.addr?.getD (Config.undefinedAddr s.freeIx)
        opcode := op?.getD (Config.undefinedOpcode s.freeIx) }
    freeIx := s.freeIx + 1 }

/-- The three bits by which the host sees `fault.code` (R36, R241). -/
def FaultCode.toBits : FaultCode → BitVec 3
  | .none => 0
  | .memoryAccessError => 1
  | .programBoundsError => 2
  | .divisionByZero => 3
  | .unknownOpcode => 4

/-! ## The memory primitives of R10 -/

/-- `MemRead(addr, 1)` (R52). -/
def memRead (addr : Word) (s : State) : Except FatalError Word :=
  if inBounds addr s.cfg.memSize then .ok (s.mem.read addr.toNat)
  else .error (.memoryAccessError addr)

/-- `MemWrite(addr, 1, v)` (R53). -/
def memWrite (addr v : Word) (s : State) : Except FatalError State :=
  if inBounds addr s.cfg.memSize then .ok (s.setMem (s.mem.write addr.toNat v))
  else .error (.memoryAccessError addr)

/-- `ProgRead(addr)` (R57). -/
def progRead (addr : Word) (prog : List InsnWord) : Except FatalError InsnWord :=
  if 0 ≤ addr.toInt then
    match prog[addr.toNat]? with
    | some w => .ok w
    | none => .error (.programBoundsError addr)
  else .error (.programBoundsError addr)

end Sys2Proof.Machine
end

