-- ==== Sys2Proof/Machine/Operands.lean ====
section
/-! DEFINITION. The Addressing Unit: operand resolution (spec/40_execution_cycle.md R104, R105, R107), and
the frame that every instruction's arm stands in (R100 lines 6 to 8; spec/41_move.md R120). -/

namespace Sys2Proof.Machine

/-- `Resolve(k)` (R104): `k` in direct mode, `MemRead(k, 1)` in indirect mode, one level deep. -/
def resolve (k : Word) (s : State) : Except FatalError Word :=
  if s.ind then memRead k s else .ok k

/-- The end of a step in which the instruction with opcode `op` raised `e` (R250). -/
def raiseIn (op : Opcode) (e : FatalError) (s : State) : StepResult :=
  .next (s.raise e (some op))

/-- The end of an arm that returned the pair `(a', t)` (R106). -/
def finish (a' t : Word) (s : State) : StepResult :=
  .next (s.commit a' t)

/-- The instruction with opcode `op` resolves its operand `k`, whether or not its arm uses the result
(R107), and then runs the arm. -/
def withOperand (op : Opcode) (k : Word) (s : State) (arm : Word → StepResult) : StepResult :=
  match resolve k s with
  | .ok y => arm y
  | .error e => raiseIn op e s

end Sys2Proof.Machine
end

