-- ==== Sys2Proof/Machine/Flags.lean ====
section
/-! DEFINITION. The hardware has no flags (spec/10_state.md R29). What stands here is the one test it makes
instead, on the accumulator itself. -/

namespace Sys2Proof.Machine

/-- Truthiness (spec/43_logical.md R150): not equal to 0; negative values are truthy. The test of AND, OR,
NOT, JPZ and JPN. -/
def truthy (a : Word) : Bool :=
  decide (a.toInt ≠ 0)

end Sys2Proof.Machine
end

