-- ==== Sys2Proof/Machine/Arithmetic.lean ====
section
/-! DEFINITION. ADD, SUB, MUL, DIV (spec/42_arithmetic.md): the exact result of the signed readings,
wrapped (R130). -/

namespace Sys2Proof.Machine

/-- ADD (R131): `acc <- wrap(a + y)`. -/
def execAdd (k : Word) (s : State) : StepResult :=
  withOperand (Instr.add k).opcode k s fun y => finish (wrap (s.acc.toInt + y.toInt)) s.pc s

/-- SUB (R132): `acc <- wrap(a - y)`. -/
def execSub (k : Word) (s : State) : StepResult :=
  withOperand (Instr.sub k).opcode k s fun y => finish (wrap (s.acc.toInt - y.toInt)) s.pc s

/-- MUL (R133): `acc <- wrap(a * y)`. -/
def execMul (k : Word) (s : State) : StepResult :=
  withOperand (Instr.mul k).opcode k s fun y => finish (wrap (s.acc.toInt * y.toInt)) s.pc s

/-- DIV (R134): DivisionByZero when the resolved operand is 0, else `acc <- wrap(tdiv(a, y))`. -/
def execDiv (k : Word) (s : State) : StepResult :=
  withOperand (Instr.div k).opcode k s fun y =>
    if y.toInt = 0 then raiseIn (Instr.div k).opcode .divisionByZero s
    else finish (wrap (tdiv s.acc.toInt y.toInt)) s.pc s

end Sys2Proof.Machine
end

