-- ==== Sys2Proof/Machine/Bitwise.lean ====
section
/-! DEFINITION. BAND, BOR, BXOR, ROTL, ROTR, BNOT (spec/44_bitwise_rotate.md). -/

namespace Sys2Proof.Machine

/-- `r <- y mod W`, the non-negative remainder (R164, R8). -/
def rotateCount (y : Word) : Nat :=
  (y.toInt % 32).toNat

/-- The rotation of R164, on the unsigned reading. -/
def rotateLeft (a y : Word) : Word :=
  let r := rotateCount y
  let ua := a.toNat
  if r = 0 then wrap ua else wrap (((ua * 2 ^ r) % 2 ^ 32 + ua / 2 ^ (32 - r) : Nat) : Int)

/-- The rotation of R165, on the unsigned reading. -/
def rotateRight (a y : Word) : Word :=
  let r := rotateCount y
  let ua := a.toNat
  if r = 0 then wrap ua else wrap ((ua / 2 ^ r + (ua * 2 ^ (32 - r)) % 2 ^ 32 : Nat) : Int)

/-- BAND (R161): `acc <- a & y`. -/
def execBand (k : Word) (s : State) : StepResult :=
  withOperand (Instr.band k).opcode k s fun y => finish (s.acc &&& y) s.pc s

/-- BOR (R162): `acc <- a | y`. -/
def execBor (k : Word) (s : State) : StepResult :=
  withOperand (Instr.bor k).opcode k s fun y => finish (s.acc ||| y) s.pc s

/-- BXOR (R163): `acc <- a ^ y`. -/
def execBxor (k : Word) (s : State) : StepResult :=
  withOperand (Instr.bxor k).opcode k s fun y => finish (s.acc ^^^ y) s.pc s

/-- ROTL (R164). -/
def execRotl (k : Word) (s : State) : StepResult :=
  withOperand (Instr.rotl k).opcode k s fun y => finish (rotateLeft s.acc y) s.pc s

/-- ROTR (R165). -/
def execRotr (k : Word) (s : State) : StepResult :=
  withOperand (Instr.rotr k).opcode k s fun y => finish (rotateRight s.acc y) s.pc s

/-- BNOT (R166): `acc <- ~a`. -/
def execBnot (k : Word) (s : State) : StepResult :=
  withOperand (Instr.bnot k).opcode k s fun _ => finish (~~~s.acc) s.pc s

end Sys2Proof.Machine
end

