-- ==== Sys2Proof/Machine/ControlTransfer.lean ====
section
/-! DEFINITION. JMP, JPZ, JPN (spec/45_control_transfer.md). The arm gives the target; `finish` adds the
universal 1 (R180). No jump checks its target (R186). -/

namespace Sys2Proof.Machine

/-- JMP (R181): `pc <- wrap(y + 1)`. -/
def execJmp (k : Word) (s : State) : StepResult :=
  withOperand (Instr.jmp k).opcode k s fun y => finish s.acc y s

/-- JPZ (R182): the jump is taken when `a = 0`. -/
def execJpz (k : Word) (s : State) : StepResult :=
  withOperand (Instr.jpz k).opcode k s fun y => finish s.acc (if truthy s.acc then s.pc else y) s

/-- JPN (R183, spec/30_encoding.md R85): the jump is taken when `a ≠ 0`. -/
def execJpn (k : Word) (s : State) : StepResult :=
  withOperand (Instr.jpn k).opcode k s fun y => finish s.acc (if truthy s.acc then y else s.pc) s

end Sys2Proof.Machine
end

