-- ==== Sys2Proof/Machine/LoadStore.lean ====
section
/-! DEFINITION. SAV and LOD (spec/46_load_store.md): the resolved operand is the effective address
(R190, R193). -/

namespace Sys2Proof.Machine

/-- SAV (R191): `MemWrite(y, 1, a)`, the accumulator unchanged. -/
def execSav (k : Word) (s : State) : StepResult :=
  withOperand (Instr.sav k).opcode k s fun y =>
    match memWrite y s.acc s with
    | .ok s' => finish s.acc s.pc s'
    | .error e => raiseIn (Instr.sav k).opcode e s

/-- LOD (R192): `acc <- MemRead(y, 1)`. -/
def execLod (k : Word) (s : State) : StepResult :=
  withOperand (Instr.lod k).opcode k s fun y =>
    match memRead y s with
    | .ok v => finish v s.pc s
    | .error e => raiseIn (Instr.lod k).opcode e s

end Sys2Proof.Machine
end

