-- ==== Sys2Proof/Machine/Logical.lean ====
section
/-! DEFINITION. The logical AND, OR, NOT (spec/43_logical.md): selections by the accumulator's
truthiness, not boolean results. -/

namespace Sys2Proof.Machine

/-- AND (R151): `y` if `a` is truthy, else `a`. -/
def execAnd (k : Word) (s : State) : StepResult :=
  withOperand (Instr.and k).opcode k s fun y => finish (if truthy s.acc then y else s.acc) s.pc s

/-- OR (R152): `a` if `a` is truthy, else `y`. -/
def execOr (k : Word) (s : State) : StepResult :=
  withOperand (Instr.or k).opcode k s fun y => finish (if truthy s.acc then s.acc else y) s.pc s

/-- NOT (R153): 0 if `a` is truthy, else 1. -/
def execNot (k : Word) (s : State) : StepResult :=
  withOperand (Instr.not k).opcode k s fun _ => finish (if truthy s.acc then 0 else 1) s.pc s

end Sys2Proof.Machine
end

