-- ==== Sys2Proof/Machine/Move.lean ====
section
/-! DEFINITION. NOP and MOV (spec/41_move.md). -/

namespace Sys2Proof.Machine

/-- NOP (R121): `acc <- a; pc <- p + 1`. -/
def execNop (k : Word) (s : State) : StepResult :=
  withOperand (Instr.nop k).opcode k s fun _ => finish s.acc s.pc s

/-- MOV (R122): `acc <- y; pc <- p + 1`. -/
def execMov (k : Word) (s : State) : StepResult :=
  withOperand (Instr.mov k).opcode k s fun y => finish y s.pc s

end Sys2Proof.Machine
end

