-- ==== Sys2Proof/Machine/System.lean ====
section
/-! DEFINITION. HLT and ADR (spec/47_system.md). -/

namespace Sys2Proof.Machine

/-- HLT (R201): the target is the sentinel -2, which the universal increment makes -1. `run` is not
changed here: the next step's halt check changes it (R101). -/
def execHlt (k : Word) (s : State) : StepResult :=
  withOperand (Instr.hlt k).opcode k s fun _ => finish s.acc (wrap (-2)) s

/-- ADR (R203): `ind <- 1 - ind`. Its own operand was resolved under the old mode (R108). -/
def execAdr (k : Word) (s : State) : StepResult :=
  withOperand (Instr.adr k).opcode k s fun _ => finish s.acc s.pc s.toggleInd

end Sys2Proof.Machine
end

