-- ==== Sys2Proof/Machine/Dispatch.lean ====
section
/-! DEFINITION. Dispatch by the opcode alone (spec/40_execution_cycle.md R103): one arm per instruction,
each the resolution of its operand, its arm and the post-processing (R100 lines 6 to 8). -/

namespace Sys2Proof.Machine

def exec (i : Instr) (s : State) : Host.Outcome State Fault Refusal :=
  match i with
  | .nop k => Sys2Proof.Machine.execNop k s
  | .mov k => Sys2Proof.Machine.execMov k s
  | .add k => Sys2Proof.Machine.execAdd k s
  | .sub k => Sys2Proof.Machine.execSub k s
  | .mul k => Sys2Proof.Machine.execMul k s
  | .div k => Sys2Proof.Machine.execDiv k s
  | .and k => Sys2Proof.Machine.execAnd k s
  | .or k => Sys2Proof.Machine.execOr k s
  | .not k => Sys2Proof.Machine.execNot k s
  | .band k => Sys2Proof.Machine.execBand k s
  | .bor k => Sys2Proof.Machine.execBor k s
  | .bxor k => Sys2Proof.Machine.execBxor k s
  | .rotl k => Sys2Proof.Machine.execRotl k s
  | .rotr k => Sys2Proof.Machine.execRotr k s
  | .bnot k => Sys2Proof.Machine.execBnot k s
  | .jmp k => Sys2Proof.Machine.execJmp k s
  | .jpz k => Sys2Proof.Machine.execJpz k s
  | .jpn k => Sys2Proof.Machine.execJpn k s
  | .sav k => Sys2Proof.Machine.execSav k s
  | .lod k => Sys2Proof.Machine.execLod k s
  | .hlt k => Sys2Proof.Machine.execHlt k s
  | .adr k => Sys2Proof.Machine.execAdr k s

end Sys2Proof.Machine
end

