-- ==== Sys2Proof/Machine/Fetch.lean ====
section
/-! DEFINITION. The Fetch/Prefetch Unit (spec/48_fetch_prefetch.md R210 to R224), and where a program is
placed. -/

namespace Sys2Proof.Machine

/-- A hit (R211): the line is VALID and its tag equals the `pc` being fetched; nothing else. -/
def fetchHits (s : State) : Bool :=
  s.cl.valid && decide (s.cl.tag = s.pc)

/-- `Fetch(pc)` (R210, R212): what it returns or raises, and the state it leaves; a failing read leaves
the line as it was and both latencies added. -/
def fetch (s : State) : Except FatalError InsnWord × State :=
  if fetchHits s then (.ok s.cl.insn, s.delay s.cfg.fetchTime)
  else
    match progRead s.pc s.prog with
    | .ok w => (.ok w, ((s.delay s.cfg.fetchTime).delay s.cfg.missPenalty).fillLine s.pc w)
    | .error e => (.error e, (s.delay s.cfg.fetchTime).delay s.cfg.missPenalty)

/-- The look-ahead address `min(pc + 1, N - 1)` (R214). -/
def lookAhead (pc : Word) (n : Nat) : Word :=
  wrap (min (pc.toInt + 1) ((n : Int) - 1))

/-- `Prefetch(pc)` (R214). The read exists after every fetch that succeeded with the line as R31 has it
(R215); in a state that breaks R31, which no run reaches, a read that does not exist leaves the line as it
was (log 12). -/
def prefetch (s : State) : State :=
  match progRead (lookAhead s.pc s.prog.length) s.prog with
  | .ok w => (s.delay s.cfg.prefetchTime).fillLine (lookAhead s.pc s.prog.length) w
  | .error _ => s.delay s.cfg.prefetchTime

/-- Line 3 of R100: the prefetch, if it is enabled. -/
def prefetchIfEnabled (s : State) : State :=
  if s.cfg.prefetchEn then prefetch s else s

/-- The configuration is within the bounds of spec/00_scope.md R6. -/
def configLegal (s : State) : Bool :=
  s.cfg.wf && progLenOk s.prog.length

/-- The program with `w` at address `p`; where the program is shorter, the addresses before `p` hold
NOP 0 (log 3). -/
def placeWord : List InsnWord → Nat → InsnWord → List InsnWord
  | [], 0, w => [w]
  | [], p + 1, w => 0 :: placeWord [] p w
  | _ :: ws, 0, w => w :: ws
  | v :: ws, p + 1, w => v :: placeWord ws p w

/-- `s` made ready to fetch the word `w` in its next step (log 3): the run is RUNNING, `pc` is an address
a program can have (0 where it was none), the word is there, the line does not hold an older word of that
address, and the configuration is legal. What is so already is left as it is. -/
def placeAtPc (s : State) (w : InsnWord) : State :=
  let pc : Word := if inBounds s.pc Config.maxProgLen then s.pc else 0
  { s with
    run := .running
    pc := pc
    prog := placeWord (if progLenOk s.prog.length then s.prog else []) pc.toNat w
    cl := if progLenOk s.prog.length && decide (s.cl.tag ≠ pc) then s.cl else { s.cl with valid := false }
    cfg := if s.cfg.wf then s.cfg else { s.cfg with memSize := Params.default.memSize } }

end Sys2Proof.Machine
end

