-- ==== Sys2Proof/Machine/Cycle.lean ====
section
/-! DEFINITION. What one iteration of the Execution Loop does after its halt check
(spec/40_execution_cycle.md R100, R103). -/

namespace Sys2Proof.Machine

/-- Lines 4 to 8 of R100: the opcode check (R103), then the instruction. -/
def dispatch (w : InsnWord) (s : State) : StepResult :=
  match decode w with
  | .ok i => exec i s
  | .error (.unknownOpcode op) => raiseIn op .unknownOpcode s

/-- Lines 2 to 8 of R100: what a step does once it has passed the halt check. -/
def cycle (s : State) : StepResult :=
  match fetch s with
  | (.error e, s') => .next (s'.raise e none)
  | (.ok w, s') => dispatch w (prefetchIfEnabled s')

end Sys2Proof.Machine
end

