-- ==== Sys2Proof/Machine/Step.lean ====
section
/-! DEFINITION. One step: one iteration of the Execution Loop (spec/40_execution_cycle.md R100). -/

namespace Sys2Proof.Machine

/-- One step (R100). HALTED and FAULTED have none (log 8); a configuration outside R6 is refused (log 9);
with `pc = -1` the halt check ends the step (R101). -/
def step (s : State) : Host.Outcome State Fault Refusal :=
  match s.run with
  | .halted => .fault .noStepHalted
  | .faulted => .fault .noStepFaulted
  | .running =>
    if configLegal s then
      if s.pc = wrap (-1) then .next s.halt else cycle s
    else .refused .illegalConfiguration

/-- `s` with the instruction word of the table bits `w` where `step` fetches next, so that the very next
step runs exactly it (log 3). -/
def State.withFetchWord (s : State) (nbits w : Nat) : State :=
  placeAtPc s (BitVec.ofNat 40 (w % 2 ^ nbits))

end Sys2Proof.Machine
end

