-- ==== Sys2Proof/Machine/HostInterface.lean ====
section
/-! DEFINITION. What the host may do (spec/70_reset_and_hazards.md R284, R287, R288; log 14): load, reset,
and read out. None of it is a step of the machine. -/

namespace Sys2Proof.Machine

/-- Reset of a machine that has run (R280): every piece of state at its reset value; the program and the
parameters are what the host has supplied, and the model's counter of free values goes on (log 6). -/
def State.hostReset (s : State) : State :=
  { State.resetWith s.cfg s.prog with freeIx := s.freeIx }

/-- The program of a sequence of text records, in order (R89, R284); none where a record has no word
(R90). -/
def loadProgram : List Record → Option (List InsnWord)
  | [] => some []
  | r :: rs =>
    match r.toWord, loadProgram rs with
    | some w, some ws => some (w :: ws)
    | _, _ => none

/-- The cells `mem[0 .. MEMSIZE-1]` in address order (R288). -/
def State.cells (s : State) : List Word :=
  (List.range s.cfg.memSize).map fun a => s.mem.read a

/-- The final report, readable when the run is HALTED: the accumulator, the full memory contents, and
`lat` (R288). -/
def State.finalReport (s : State) : Option (Word × List Word × Nat) :=
  match s.run with
  | .halted => some (s.acc, s.cells, s.lat)
  | .running | .faulted => none

/-- The fault record, readable when the run is FAULTED (R241, R287). -/
def State.faultReport (s : State) : Option FaultRecord :=
  match s.run with
  | .faulted => some s.fault
  | .running | .halted => none

end Sys2Proof.Machine
end

