-- ==== Sys2Proof/Safety.lean ====
section
/-! DEFINITION. The terms in which claims about the machine are made: the invariant, what an operand is,
the observations of spec/48_fetch_prefetch.md R217 and R223, runs and their ends (R111, R252), and the
counts of R222. -/

namespace Sys2Proof.Machine

/-! ## The invariant -/

/-- The cache line's invariant (spec/10_state.md R31): a valid line holds the instruction of the address
it is tagged with, and the address is in the program. -/
abbrev State.LineOk (s : State) : Prop :=
  s.cl.valid = true → 0 ≤ s.cl.tag.toInt ∧ s.prog[s.cl.tag.toNat]? = some s.cl.insn

/-- What every run from reset keeps. -/
structure State.Inv (s : State) : Prop where
  /-- The data memory is in its canonical form. -/
  memWf : s.mem.wf = true
  /-- It names no cell outside `[0, MEMSIZE)` (R50). -/
  memBelow : s.mem.below s.cfg.memSize = true
  /-- R31. -/
  line : s.LineOk
  /-- A fault is recorded exactly when the run is FAULTED (R28). -/
  record : s.run = .faulted ↔ s.fault.code ≠ .none
  /-- In HALTED `pc` is -1 (R202). -/
  halted : s.run = .halted → s.pc = -1

/-! ## Operands -/

/-- `y` is the resolved operand of the raw operand `k` in state `s` (R104): `k` itself in direct mode; in
indirect mode the content of the cell `k` names, which must exist. -/
abbrev OperandIs (s : State) (k y : Word) : Prop :=
  (s.ind = false ∧ y = k) ∨
    (s.ind = true ∧ 0 ≤ k.toInt ∧ k.toInt < s.cfg.memSize ∧ y = s.mem.read k.toInt.toNat)

/-- The raw operand `k` cannot be resolved in state `s` (R104): indirect mode, and no such cell. -/
abbrev OperandFails (s : State) (k : Word) : Prop :=
  s.ind = true ∧ (k.toInt < 0 ∨ (s.cfg.memSize : Int) ≤ k.toInt)

/-- What `raise` (spec/60_exceptions.md R250) leaves of a state `s` for an error of code `code`: the run is
FAULTED, the record names the error and the `pc` of `s`, and everything else is as in `s`. -/
abbrev RaisedIn (s t : State) (code : FaultCode) : Prop :=
  t.run = .faulted ∧ t.fault.code = code ∧ t.fault.pc = s.pc ∧ t.acc = s.acc ∧ t.pc = s.pc ∧
    t.ind = s.ind ∧ t.mem = s.mem ∧ t.cl = s.cl ∧ t.lat = s.lat ∧ t.prog = s.prog ∧ t.cfg = s.cfg

/-- The instruction `c k` raises MemoryAccessError at its resolution where `k` cannot be resolved (R107,
R242), recording `k` and its own opcode. -/
def RaisesUnresolved (c : Word → Instr) : Prop :=
  ∀ s k, OperandFails s k → ∃ t, exec (c k) s = .next t ∧ RaisedIn s t .memoryAccessError ∧
    t.fault.addr = k ∧ t.fault.opcode = (c k).opcode

/-- The target of the opcode table (spec/10_state.md R23), from the accumulator `a`, the instruction's
address `p` and its resolved operand `y`. -/
def targetOf (i : Instr) (a p y : Word) : Word :=
  match i with
  | .jmp _ => y
  | .jpz _ => if a = 0 then y else p
  | .jpn _ => if a = 0 then p else y
  | .hlt _ => -2
  | .nop _ | .mov _ | .add _ | .sub _ | .mul _ | .div _ | .and _ | .or _ | .not _ | .band _ | .bor _
  | .bxor _ | .rotl _ | .rotr _ | .bnot _ | .sav _ | .lod _ | .adr _ => p

/-! ## Steps -/

/-- The program memory holds the word `w` at the address `p` (R56). -/
abbrev WordAt (s : State) (p : Word) (w : InsnWord) : Prop :=
  0 ≤ p.toInt ∧ s.prog[p.toInt.toNat]? = some w

/-- The program memory holds the instruction `i` at the address `p`. -/
abbrev InstrAt (s : State) (p : Word) (i : Instr) : Prop :=
  WordAt s p (encode i)

/-- No program address (R57): negative, or `N` or more. -/
abbrev OutsideProgram (s : State) (p : Word) : Prop :=
  p.toInt < 0 ∨ (s.prog.length : Int) ≤ p.toInt

/-- The cache line hits at the current `pc` (R211). -/
abbrev Hits (s : State) : Prop :=
  s.cl.valid = true ∧ s.cl.tag = s.pc

/-- A step of `s` passes the halt check (R100, R101): the machine takes steps, and `pc` is not -1. -/
abbrev PassesHaltCheck (s : State) : Prop :=
  s.run = .running ∧ configLegal s = true ∧ s.pc ≠ -1

/-- `s` and `t` agree on everything but the cache line, the latency total, the latencies and whether the
prefetch is enabled: the state R217 and R223 speak of, with the program, `MEMSIZE` and the model's own
counter. -/
abbrev SameArchitecture (s t : State) : Prop :=
  s.acc = t.acc ∧ s.pc = t.pc ∧ s.ind = t.ind ∧ s.mem = t.mem ∧ s.run = t.run ∧ s.fault = t.fault ∧
    s.prog = t.prog ∧ s.cfg.memSize = t.cfg.memSize ∧ s.freeIx = t.freeIx

/-- Two answers agree: next states with the same architecture, or the same stop. -/
def SameAnswer : StepResult → StepResult → Prop
  | .next s, .next t => SameArchitecture s t
  | .fault r, .fault r' => r = r'
  | .refused r, .refused r' => r = r'
  | _, _ => False

/-- The machine without its cache line, latencies and prefetch (R223): `Fetch(pc)` is `ProgRead(pc)`. -/
def archStep (s : State) : StepResult :=
  match s.run with
  | .halted => .fault .noStepHalted
  | .faulted => .fault .noStepFaulted
  | .running =>
    if configLegal s then
      if s.pc = -1 then .next s.halt
      else
        match progRead s.pc s.prog with
        | .error e => .next (s.raise e none)
        | .ok w => dispatch w s
    else .refused .illegalConfiguration

/-! ## Runs -/

/-- `n` steps lead from `s` to `t`. -/
def RunsTo (n : Nat) (s t : State) : Prop :=
  Host.Core.run Sys2Proof.core n s = .next t

/-- A final state (R111): HALTED. A FAULTED state is never one (R252). -/
abbrev State.Final (s : State) : Prop :=
  s.run = .halted

/-- A run that ends normally: within `n` steps the machine is HALTED (R111, R287). -/
def HaltsWithin (n : Nat) (s t : State) : Prop :=
  RunsTo n s t ∧ t.Final

/-- A safe run: none of its first `n` states is FAULTED and every one of those steps has an answer. -/
def SafeFor (n : Nat) (s : State) : Prop :=
  ∀ k, k ≤ n → ∃ t, RunsTo k s t ∧ t.run ≠ .faulted

/-! ## Counts (R222) -/

/-- The fetches, the misses and the prefetches of some steps. -/
structure Counts where
  fetches : Nat
  misses : Nat
  prefetches : Nat
  deriving DecidableEq, Repr

/-- What one step of `s` adds to the counts (R221): nothing at the halt check; else one fetch, a miss
where the line does not hit, and a prefetch where it is enabled and the fetch did not fault. -/
def stepCounts (s : State) : Counts :=
  if PassesHaltCheck s then
    { fetches := 1
      misses := if Hits s then 0 else 1
      prefetches := if s.cfg.prefetchEn = true ∧ (Hits s ∨ ¬OutsideProgram s s.pc) then 1 else 0 }
  else { fetches := 0, misses := 0, prefetches := 0 }

/-- The counts of the first `n` steps from `s`. -/
def runCounts : Nat → State → Counts
  | 0, _ => { fetches := 0, misses := 0, prefetches := 0 }
  | n + 1, s =>
    match step s with
    | .next t =>
      { fetches := (stepCounts s).fetches + (runCounts n t).fetches
        misses := (stepCounts s).misses + (runCounts n t).misses
        prefetches := (stepCounts s).prefetches + (runCounts n t).prefetches }
    | .fault _ | .refused _ => { fetches := 0, misses := 0, prefetches := 0 }

end Sys2Proof.Machine
end

