-- ==== Sys2Proof/Certificates/Slice0/Obligations.lean ====
section
/-! DEFINITION. The statements about the machine, each with the rules or the sections of spec/ it comes
from. Where the spec marks a rule as its own decision (D<n>) or as derived, the docstring says so. The
terms (`OperandIs`, `RaisedIn`, `InstrAt`, `State.Inv`, ...) are those of Sys2Proof/Safety.lean. That raising an error
is entering FAULTED with a record (`RaisedIn`) is spec/60_exceptions.md R250, the spec's decisions D12 and D13.
The width of 32 bits, where a statement shows it, is the spec's decision D1 (log 1). -/

open Sys2Proof Sys2Proof.Machine

/-! ## The instructions -/

/-- R121 (NOP), whole; opcode 0 is the spec's decision D4. -/
def Obligations.NopChangesPcOnly : Prop :=
  (∀ k, decode (insnWord 0 k) = .ok (.nop k)) ∧
  (∀ s k y, OperandIs s k y → exec (.nop k) s = .next { s with pc := s.pc + 1 }) ∧
  RaisesUnresolved .nop

/-- R122 (MOV), whole; opcode 1 is the spec's decision D4. In indirect mode MOV is what LOD is in direct
mode. -/
def Obligations.MovLoadsResolvedOperand : Prop :=
  (∀ k, decode (insnWord 1 k) = .ok (.mov k)) ∧
  (∀ s k y, OperandIs s k y → exec (.mov k) s = .next { s with acc := y, pc := s.pc + 1 }) ∧
  (∀ s k, s.ind = true → 0 ≤ k.toInt → k.toInt < s.cfg.memSize →
    ∃ v, exec (.mov k) s = .next { s with acc := v, pc := s.pc + 1 } ∧
      exec (.lod k) { s with ind := false } = .next { s with acc := v, pc := s.pc + 1, ind := false })

/-- spec/42_arithmetic.md, ADD, SUB, MUL: the result is the exact one modulo `2^W`, and the exact one itself
where it fits. That a result that does not fit wraps is the spec's decision D2, the width D1. -/
def Obligations.AddSubMulWrap : Prop :=
  ∀ s k y, OperandIs s k y →
    exec (.add k) s = .next { s with acc := s.acc + y, pc := s.pc + 1 } ∧
    exec (.sub k) s = .next { s with acc := s.acc - y, pc := s.pc + 1 } ∧
    exec (.mul k) s = .next { s with acc := s.acc * y, pc := s.pc + 1 } ∧
    (-(2 ^ 31) ≤ s.acc.toInt + y.toInt → s.acc.toInt + y.toInt < 2 ^ 31 →
      (s.acc + y).toInt = s.acc.toInt + y.toInt) ∧
    (-(2 ^ 31) ≤ s.acc.toInt - y.toInt → s.acc.toInt - y.toInt < 2 ^ 31 →
      (s.acc - y).toInt = s.acc.toInt - y.toInt) ∧
    (-(2 ^ 31) ≤ s.acc.toInt * y.toInt → s.acc.toInt * y.toInt < 2 ^ 31 →
      (s.acc * y).toInt = s.acc.toInt * y.toInt)

/-- spec/42_arithmetic.md, DIV by an operand that is not 0: the quotient rounded toward zero, but for the
one quotient that does not fit, which wraps. The rounding is the spec's decision D7, the wrap D2. -/
def Obligations.DivRoundsTowardZero : Prop :=
  ∀ s k y, OperandIs s k y → y ≠ 0 →
    ∃ q : Word, exec (.div k) s = .next { s with acc := q, pc := s.pc + 1 } ∧
      if s.acc.toInt = -(2 ^ 31) ∧ y.toInt = -1 then q = s.acc
      else q.toInt = s.acc.toInt.tdiv y.toInt

/-- R244 (DivisionByZero): raised by DIV and by nothing else, when the resolved operand is 0, before any
write. -/
def Obligations.DivisionByZeroIsOfDivAlone : Prop :=
  (∀ s k, OperandIs s k 0 →
    ∃ t, exec (.div k) s = .next t ∧ RaisedIn s t .divisionByZero) ∧
  (∀ i s t, s.fault.code = .none → exec i s = .next t → t.fault.code = .divisionByZero →
    ∃ k, i = .div k ∧ OperandIs s k 0) ∧
  (∀ s t, s.Inv → step s = .next t → t.fault.code = .divisionByZero →
    ∃ k, InstrAt s s.pc (.div k) ∧ OperandIs s k 0)

/-- R151 (AND), R152 (OR), R153 (NOT), whole: selections by whether the accumulator is 0 (that truthy
means not 0 is the spec's decision D22, but these rules say it themselves). The opcode numbers are the spec's
decision D4. -/
def Obligations.LogicalSelectByTruthiness : Prop :=
  (∀ k, decode (insnWord 6 k) = .ok (.and k) ∧ decode (insnWord 7 k) = .ok (.or k) ∧
    decode (insnWord 8 k) = .ok (.not k)) ∧
  (∀ s k y, OperandIs s k y →
    exec (.and k) s = .next { s with acc := if s.acc = 0 then s.acc else y, pc := s.pc + 1 } ∧
    exec (.or k) s = .next { s with acc := if s.acc = 0 then y else s.acc, pc := s.pc + 1 } ∧
    exec (.not k) s = .next { s with acc := if s.acc = 0 then 1 else 0, pc := s.pc + 1 }) ∧
  RaisesUnresolved .not

/-- R161 (BAND), R162 (BOR), R163 (BXOR), R166 (BNOT), whole, bit by bit. The opcode numbers are the spec's
decision D4. -/
def Obligations.BitwiseActsBitByBit : Prop :=
  (∀ k, decode (insnWord 9 k) = .ok (.band k) ∧ decode (insnWord 10 k) = .ok (.bor k) ∧
    decode (insnWord 11 k) = .ok (.bxor k) ∧ decode (insnWord 14 k) = .ok (.bnot k)) ∧
  (∀ s k y, OperandIs s k y →
    (∃ r : Word, exec (.band k) s = .next { s with acc := r, pc := s.pc + 1 } ∧
      ∀ n < 32, r.getLsbD n = (s.acc.getLsbD n && y.getLsbD n)) ∧
    (∃ r : Word, exec (.bor k) s = .next { s with acc := r, pc := s.pc + 1 } ∧
      ∀ n < 32, r.getLsbD n = (s.acc.getLsbD n || y.getLsbD n)) ∧
    (∃ r : Word, exec (.bxor k) s = .next { s with acc := r, pc := s.pc + 1 } ∧
      ∀ n < 32, r.getLsbD n = (s.acc.getLsbD n != y.getLsbD n)) ∧
    (∃ r : Word, exec (.bnot k) s = .next { s with acc := r, pc := s.pc + 1 } ∧
      (∀ n < 32, r.getLsbD n = !s.acc.getLsbD n) ∧ r.toInt = -s.acc.toInt - 1)) ∧
  RaisesUnresolved .bnot

/-- spec/44_bitwise_rotate.md, ROTL and ROTR: bit `n` of the result is bit `(n - y) mod W` of the
accumulator for ROTL, bit `(n + y) mod W` for ROTR, for a count of any size and sign. That they rotate the
32 bits by `y mod 32` is the spec's decision D8. -/
def Obligations.RotatesMoveEveryBit : Prop :=
  ∀ s k y, OperandIs s k y →
    (∃ r : Word, exec (.rotl k) s = .next { s with acc := r, pc := s.pc + 1 } ∧
      ∀ n : Nat, n < 32 → r.getLsbD n = s.acc.getLsbD (((n : Int) - y.toInt) % 32).toNat) ∧
    (∃ r : Word, exec (.rotr k) s = .next { s with acc := r, pc := s.pc + 1 } ∧
      ∀ n : Nat, n < 32 → r.getLsbD n = s.acc.getLsbD (((n : Int) + y.toInt) % 32).toNat)

/-- spec/44_bitwise_rotate.md: ROTR by `y` equals ROTL by `-y` (the spec's decision D8), at every count and in
both modes. -/
def Obligations.RotrIsRotlOfNegatedCount : Prop :=
  ∀ s k k' y, OperandIs s k y → OperandIs s k' (-y) →
    ∃ t, exec (.rotr k) s = .next t ∧ exec (.rotl k') s = .next t

/-- R181 (JMP), R182 (JPZ), R183 (JPN), whole: the operand is resolved whether or not the jump is taken, a
taken jump continues one after its operand. The opcode numbers are the spec's decision D4. -/
def Obligations.JumpsLandOneAfterTheirOperand : Prop :=
  (∀ k, decode (insnWord 15 k) = .ok (.jmp k) ∧ decode (insnWord 16 k) = .ok (.jpz k) ∧
    decode (insnWord 17 k) = .ok (.jpn k)) ∧
  (∀ s k y, OperandIs s k y →
    exec (.jmp k) s = .next { s with pc := y + 1 } ∧
    exec (.jpz k) s = .next { s with pc := if s.acc = 0 then y + 1 else s.pc + 1 } ∧
    exec (.jpn k) s = .next { s with pc := if s.acc = 0 then s.pc + 1 else y + 1 }) ∧
  RaisesUnresolved .jmp ∧ RaisesUnresolved .jpz ∧ RaisesUnresolved .jpn

/-- R192 (LOD), whole: one cell read at the resolved operand; out of range it raises and changes nothing; a
cell that still holds what reset left in it reads 0 (that only SAV writes cells is `OnlySavChangesMemory`).
The opcode number is the spec's decision D4. -/
def Obligations.LodReadsOneCell : Prop :=
  (∀ k, decode (insnWord 19 k) = .ok (.lod k)) ∧
  (∀ s k y, OperandIs s k y → 0 ≤ y.toInt → y.toInt < s.cfg.memSize →
    exec (.lod k) s = .next { s with acc := s.mem.read y.toInt.toNat, pc := s.pc + 1 }) ∧
  (∀ cfg prog s k y, OperandIs s k y → 0 ≤ y.toInt → y.toInt < s.cfg.memSize →
    s.mem.read y.toInt.toNat = (State.resetWith cfg prog).mem.read y.toInt.toNat →
    exec (.lod k) s = .next { s with acc := 0, pc := s.pc + 1 }) ∧
  (∀ s k y, OperandIs s k y → (y.toInt < 0 ∨ (s.cfg.memSize : Int) ≤ y.toInt) →
    ∃ t, exec (.lod k) s = .next t ∧ RaisedIn s t .memoryAccessError ∧ t.fault.addr = y) ∧
  RaisesUnresolved .lod

/-- R191 (SAV), whole: exactly the cell at the resolved operand becomes the accumulator; out of range it
raises and no cell changes. The opcode number is the spec's decision D4. The premise `s.mem.wf` is the model's
own form of memory (log 11): it rules out lists that are the memory of no run. -/
def Obligations.SavWritesOneCell : Prop :=
  (∀ k, decode (insnWord 18 k) = .ok (.sav k)) ∧
  (∀ s k y, s.mem.wf = true → OperandIs s k y → 0 ≤ y.toInt → y.toInt < s.cfg.memSize →
    ∃ m : Memory, exec (.sav k) s = .next { s with mem := m, pc := s.pc + 1 } ∧
      m.read y.toInt.toNat = s.acc ∧ ∀ a, a ≠ y.toInt.toNat → m.read a = s.mem.read a) ∧
  (∀ s k y, OperandIs s k y → (y.toInt < 0 ∨ (s.cfg.memSize : Int) ≤ y.toInt) →
    ∃ t, exec (.sav k) s = .next t ∧ RaisedIn s t .memoryAccessError ∧ t.fault.addr = y) ∧
  RaisesUnresolved .sav

/-- spec/47_system.md, HLT: `pc` becomes the sentinel -1, nothing else changes, and the next step's halt
check ends the run; an operand out of range in indirect mode raises instead (the spec's decision D10). -/
def Obligations.HltEndsTheRunInOneMoreStep : Prop :=
  (∀ s k y, OperandIs s k y → exec (.hlt k) s = .next { s with pc := -1 }) ∧
  (∀ s k y t, OperandIs s k y → s.run = .running → configLegal s = true →
    exec (.hlt k) s = .next t → step t = .next { s with pc := -1, run := .halted }) ∧
  RaisesUnresolved .hlt

/-- R203 (ADR), whole: the mode is inverted and nothing else but `pc` changes; ADR's own operand is
resolved under the old mode, and where that raises the mode is not inverted. The opcode number is the
spec's decision D4. -/
def Obligations.AdrInvertsTheMode : Prop :=
  (∀ k, decode (insnWord 21 k) = .ok (.adr k)) ∧
  (∀ s k y, OperandIs s k y → exec (.adr k) s = .next { s with ind := !s.ind, pc := s.pc + 1 }) ∧
  RaisesUnresolved .adr

/-- spec/40_execution_cycle.md section 3: every one of the 22 instructions resolves its operand first, also
those that make no use of it, and raises MemoryAccessError with the operand where it cannot (for the five
that ignore it, the spec's decision D10), before anything its arm could raise or do. -/
def Obligations.UnresolvedOperandRaisesInEveryInstruction : Prop :=
  ∀ i s, OperandFails s i.operand →
    ∃ t, exec i s = .next t ∧ RaisedIn s t .memoryAccessError ∧ t.fault.addr = i.operand ∧
      t.fault.opcode = i.opcode

/-! ## Frames -/

/-- The frame of every instruction but SAV (spec/10_state.md, the table of section 1 and the list of
section 5): memory, the mode (but for ADR), the cache line, the latency total, the program and the
parameters are as before, the accumulator too for the instructions the table lists so; and either the run
state and the record are as before, or the instruction raised and nothing else changed. The model's own
counter is not part of the claim. -/
def Obligations.FrameOfInstructionsThatStoreNothing : Prop :=
  ∀ i s t, (∀ k, i ≠ .sav k) → exec i s = .next t →
    (∀ a, t.mem.read a = s.mem.read a) ∧ t.mem = s.mem ∧
    ((∀ k, i ≠ .adr k) → t.ind = s.ind) ∧
    ((∃ k, i = .nop k ∨ i = .jmp k ∨ i = .jpz k ∨ i = .jpn k ∨ i = .hlt k ∨ i = .adr k) → t.acc = s.acc) ∧
    t.cl = s.cl ∧ t.lat = s.lat ∧ t.prog = s.prog ∧ t.cfg = s.cfg ∧
    ((t.run = s.run ∧ t.fault = s.fault) ∨ ∃ c, RaisedIn s t c)

/-- The frame of SAV: every cell but the one at its resolved operand is as before (every cell where it
raised), and so is everything but memory and `pc`. -/
def Obligations.FrameOfSav : Prop :=
  ∀ k s t, exec (.sav k) s = .next t →
    (∀ y, resolve k s = .ok y → ∀ a, a ≠ y.toNat → t.mem.read a = s.mem.read a) ∧
    (∀ e, resolve k s = .error e → ∀ a, t.mem.read a = s.mem.read a) ∧
    t.acc = s.acc ∧ t.ind = s.ind ∧ t.cl = s.cl ∧ t.lat = s.lat ∧ t.prog = s.prog ∧ t.cfg = s.cfg ∧
    ((t.run = s.run ∧ t.fault = s.fault) ∨ ∃ c, RaisedIn s t c)

/-- No instruction stops in any state: each answers a next state (spec/60_exceptions.md section 1: what is
no error; an error is a next state of the model, log 7). -/
def Obligations.EveryInstructionAnswersANextState : Prop :=
  ∀ i s, ∃ t, exec i s = .next t

/-- R23, whole: every instruction that completes writes `pc <- wrap(t + 1)` with the target of the opcode
table; a faulting one does not write `pc`. -/
def Obligations.PcAdvancesFromTheTableTarget : Prop :=
  ∀ i s t, s.run = .running → exec i s = .next t →
    (t.run = .running ∧ ∃ y, OperandIs s i.operand y ∧ t.pc = targetOf i s.acc s.pc y + 1) ∨
    (t.run = .faulted ∧ t.pc = s.pc)

/-! ## The step -/

/-- spec/40_execution_cycle.md section 1: the halt check at the start of a step ends the run when `pc` is
-1 and changes nothing else (that it is a step is the spec's decision D24). -/
def Obligations.HaltCheckEndsTheRun : Prop :=
  ∀ s, s.run = .running → configLegal s = true → s.pc = -1 → step s = .next { s with run := .halted }

/-- spec/40_execution_cycle.md section 1 and spec/60_exceptions.md section 3: in HALTED and FAULTED the
machine has no step (a named stop of the model, log 8). -/
def Obligations.NoStepAfterTheEndOfARun : Prop :=
  ∀ s, (s.run = .halted → step s = .fault .noStepHalted) ∧
    (s.run = .faulted → step s = .fault .noStepFaulted)

/-- spec/00_scope.md section 4: a configuration outside the bounds is refused (the bounds are the spec's
decisions D17 and D23), and no legal one is. -/
def Obligations.OnlyIllegalConfigurationsAreRefused : Prop :=
  ∀ s, s.run = .running →
    ((∃ r, step s = .refused r) ↔
      ¬(1 ≤ s.cfg.memSize ∧ s.cfg.memSize ≤ 2 ^ 31 ∧ s.prog.length ≤ 2 ^ 31 - 1)) ∧
    (∀ r, step s = .refused r → r = .illegalConfiguration)

/-- A step runs the decoded instruction: where the program holds at `pc` a word that decodes to `i`, the
step is `exec i` in the state whose cache line and latency total the fetch and the prefetch have changed
(spec/40_execution_cycle.md section 1, spec/48_fetch_prefetch.md sections 1, 2 and 4). -/
def Obligations.StepRunsTheDecodedInstruction : Prop :=
  ∀ s w i, s.Inv → PassesHaltCheck s → WordAt s s.pc w → decode w = .ok i →
    (s.cfg.prefetchEn = false →
      step s = exec i { s with
        cl := ⟨true, s.pc, w⟩
        lat := s.lat + s.cfg.fetchTime + (if Hits s then 0 else s.cfg.missPenalty) }) ∧
    (s.cfg.prefetchEn = true →
      ∃ la v, la.toInt = min (s.pc.toInt + 1) ((s.prog.length : Int) - 1) ∧ WordAt s la v ∧
        step s = exec i { s with
          cl := ⟨true, la, v⟩
          lat := s.lat + s.cfg.fetchTime + (if Hits s then 0 else s.cfg.missPenalty) +
            s.cfg.prefetchTime })

/-- spec/40_execution_cycle.md section 2 and spec/60_exceptions.md section 2: a word whose opcode is none of
the 22 raises UnknownOpcode when it is dispatched, whatever its operand and the mode (that the check comes
before resolution is the spec's decision D11, that it comes at dispatch D21). -/
def Obligations.UnknownOpcodeIsRaisedAtDispatch : Prop :=
  ∀ s w, s.Inv → PassesHaltCheck s → WordAt s s.pc w → 22 ≤ (InsnWord.opcode w).toNat →
    ∃ t l n, step s = .next t ∧ RaisedIn { s with cl := l, lat := n } t .unknownOpcode ∧
      t.fault.opcode = InsnWord.opcode w

/-- spec/48_fetch_prefetch.md section 1 and spec/60_exceptions.md section 1: a fetch outside the program
raises ProgramBoundsError; both latencies are added, the line is left, no instruction runs (for a negative
`pc` other than -1, the spec's decision D9). -/
def Obligations.FetchOutsideTheProgramRaises : Prop :=
  ∀ s, s.Inv → PassesHaltCheck s → OutsideProgram s s.pc →
    ∃ t, step s = .next t ∧
      RaisedIn { s with lat := s.lat + s.cfg.fetchTime + s.cfg.missPenalty } t .programBoundsError ∧
      t.fault.addr = s.pc

/-- spec/40_execution_cycle.md section 4 and spec/60_exceptions.md section 3: a step that raises writes none
of `acc`, `pc`, `ind` and `mem`, and records the `pc` of the step (the spec's decisions D12 and D13). -/
def Obligations.FaultingStepWritesNothing : Prop :=
  ∀ s t, step s = .next t → t.run = .faulted →
    t.acc = s.acc ∧ t.pc = s.pc ∧ t.ind = s.ind ∧ t.mem = s.mem ∧ t.prog = s.prog ∧ t.cfg = s.cfg ∧
    t.fault.code ≠ .none ∧ t.fault.pc = s.pc

/-- spec/60_exceptions.md section 1, the table of the four errors: each is raised where the table says, with
the address and the opcode it says (the codes and the record are the spec's decision D12). What the table
calls undefined is not claimed. -/
def Obligations.EachErrorHasItsCause : Prop :=
  ∀ s t, s.Inv → step s = .next t → t.run = .faulted →
    (t.fault.code = .programBoundsError ∧ OutsideProgram s s.pc ∧ t.fault.addr = s.pc) ∨
    (t.fault.code = .unknownOpcode ∧
      ∃ w, WordAt s s.pc w ∧ 22 ≤ (InsnWord.opcode w).toNat ∧ t.fault.opcode = InsnWord.opcode w) ∨
    (t.fault.code = .divisionByZero ∧
      ∃ k, InstrAt s s.pc (.div k) ∧ OperandIs s k 0 ∧ t.fault.opcode = 5) ∨
    (t.fault.code = .memoryAccessError ∧
      ∃ i, InstrAt s s.pc i ∧ t.fault.opcode = i.opcode ∧
        ((OperandFails s i.operand ∧ t.fault.addr = i.operand) ∨
          ∃ k y, (i = .sav k ∨ i = .lod k) ∧ OperandIs s k y ∧
            (y.toInt < 0 ∨ (s.cfg.memSize : Int) ≤ y.toInt) ∧ t.fault.addr = y))

/-- spec/10_state.md, the fault record: it is written when `run` becomes FAULTED and at no other time (the
spec's decision D12). -/
def Obligations.FaultRecordIsWrittenOnce : Prop :=
  ∀ s t, step s = .next t → (t.fault ≠ s.fault → t.run = .faulted) ∧ s.run = .running

/-! ## The Fetch/Prefetch Unit -/

/-- R210 and R211, whole: a hit is a VALID line with the tag `pc`; then the line stays, program memory is
not read and only FETCH_TIME is added. Anything else is a miss: MISS_PENALTY too, and the line is replaced
by what program memory holds, or the read fails and the line stays. -/
def Obligations.FetchHitsOrMisses : Prop :=
  ∀ s,
    (Hits s → fetch s = (.ok s.cl.insn, { s with lat := s.lat + s.cfg.fetchTime })) ∧
    (¬Hits s → ∀ w, WordAt s s.pc w →
      fetch s = (.ok w, { s with
        cl := ⟨true, s.pc, w⟩
        lat := s.lat + s.cfg.fetchTime + s.cfg.missPenalty })) ∧
    (¬Hits s → OutsideProgram s s.pc →
      fetch s = (.error (.programBoundsError s.pc),
        { s with lat := s.lat + s.cfg.fetchTime + s.cfg.missPenalty })) ∧
    (s.cl.valid = false → ¬Hits s)

/-- spec/48_fetch_prefetch.md section 2: the prefetch loads the word at `min(pc + 1, N - 1)`, whatever the
line held, adds PREFETCH_TIME, and changes nothing else; where it is not enabled nothing happens. -/
def Obligations.PrefetchLoadsTheNextWord : Prop :=
  ∀ (s : State) (w : InsnWord), configLegal s = true → WordAt s s.pc w →
    (s.cfg.prefetchEn = true →
      ∃ la v, la.toInt = min (s.pc.toInt + 1) ((s.prog.length : Int) - 1) ∧ WordAt s la v ∧
        prefetchIfEnabled s = { s with cl := ⟨true, la, v⟩, lat := s.lat + s.cfg.prefetchTime }) ∧
    (s.cfg.prefetchEn = false → prefetchIfEnabled s = s)

/-- spec/48_fetch_prefetch.md section 3 (derived there): with the prefetch the next fetch hits exactly when
`pc` has become `min(p + 1, N - 1)`; without it, exactly when `pc` has not changed. -/
def Obligations.WhenTheNextFetchHits : Prop :=
  ∀ s t, s.Inv → PassesHaltCheck s → step s = .next t → t.run = .running →
    (s.cfg.prefetchEn = true →
      (Hits t ↔ t.pc.toInt = min (s.pc.toInt + 1) ((s.prog.length : Int) - 1))) ∧
    (s.cfg.prefetchEn = false → (Hits t ↔ t.pc = s.pc))

/-- spec/48_fetch_prefetch.md section 4 (derived there): what one step adds to the latency total. -/
def Obligations.LatencyOfAStep : Prop :=
  ∀ s t, step s = .next t →
    t.lat = s.lat +
      (if PassesHaltCheck s then
        s.cfg.fetchTime + (if Hits s then 0 else s.cfg.missPenalty) +
          (if s.cfg.prefetchEn = true ∧ (Hits s ∨ ¬OutsideProgram s s.pc) then s.cfg.prefetchTime else 0)
      else 0)

/-- spec/48_fetch_prefetch.md section 4 (derived there): the latency of a run is the sum over its fetches,
misses and prefetches; without the prefetch there are no prefetches, with it as many as fetches, or one
fewer where the run ended in ProgramBoundsError. -/
def Obligations.LatencyOfARun : Prop :=
  ∀ n s t, RunsTo n s t →
    t.lat = s.lat + (runCounts n s).fetches * s.cfg.fetchTime + (runCounts n s).misses * s.cfg.missPenalty +
      (runCounts n s).prefetches * s.cfg.prefetchTime ∧
    (s.cfg.prefetchEn = false → (runCounts n s).prefetches = 0) ∧
    (s.Inv → s.run = .running → s.cfg.prefetchEn = true →
      (t.fault.code ≠ .programBoundsError → (runCounts n s).prefetches = (runCounts n s).fetches) ∧
      (t.fault.code = .programBoundsError → (runCounts n s).prefetches + 1 = (runCounts n s).fetches))

/-- spec/48_fetch_prefetch.md section 2 (derived there): the prefetch never changes an architectural result.
Two machines that agree on everything but the line, the latencies and whether the prefetch is enabled go
through the same architecture, for any number of steps, and stop alike. -/
def Obligations.PrefetchNeverChangesResults : Prop :=
  (∀ n s t, s.Inv → t.Inv → SameArchitecture s t →
    SameAnswer (Host.Core.run Sys2Proof.core n s) (Host.Core.run Sys2Proof.core n t)) ∧
  (∀ n (cfg : Params) (prog : List InsnWord),
    SameAnswer (Host.Core.run Sys2Proof.core n (State.resetWith { cfg with prefetchEn := true } prog))
      (Host.Core.run Sys2Proof.core n (State.resetWith { cfg with prefetchEn := false } prog)))

/-- spec/48_fetch_prefetch.md sections 1 and 4 (derived there): the machine without line, latencies and
prefetch, whose fetch is a plain read of the program, agrees with the full machine on everything but the
line and the latency total, from every state that meets the invariant. -/
def Obligations.StepRefinesThePlainFetchMachine : Prop :=
  ∀ s, s.Inv → SameAnswer (step s) (archStep s)

/-! ## The whole machine -/

/-- The invariant is kept by every step: memory in its canonical form (log 11) and within `MEMSIZE`, the
cache line's invariant (spec/10_state.md section 2), a fault recorded exactly in FAULTED, `pc` = -1 in
HALTED (spec/47_system.md). -/
def Obligations.StepKeepsTheInvariant : Prop :=
  ∀ s t, s.Inv → step s = .next t → t.Inv

/-- Every reset state meets the invariant, whatever the host has loaded. -/
def Obligations.ResetMeetsTheInvariant : Prop :=
  State.reset.Inv ∧ (∀ cfg prog, (State.resetWith cfg prog).Inv) ∧ (∀ s : State, s.hostReset.Inv)

/-- spec/10_state.md section 4 and spec/00_scope.md section 4: no step writes the program or a parameter. -/
def Obligations.ProgramAndParametersAreFixed : Prop :=
  ∀ s t, step s = .next t → t.prog = s.prog ∧ t.cfg = s.cfg

/-- spec/10_state.md section 1, the addressing-mode bit: only ADR writes it, and it inverts it. -/
def Obligations.OnlyAdrChangesTheMode : Prop :=
  ∀ s t, s.Inv → step s = .next t → t.ind ≠ s.ind → ∃ k, InstrAt s s.pc (.adr k) ∧ t.ind = !s.ind

/-- spec/20_memory.md sections 1 and spec/10_state.md section 4: a cell changes only by a SAV whose resolved
operand is its address, and it becomes the accumulator. -/
def Obligations.OnlySavChangesMemory : Prop :=
  ∀ s t a, s.Inv → step s = .next t → t.mem.read a ≠ s.mem.read a →
    ∃ k y, InstrAt s s.pc (.sav k) ∧ OperandIs s k y ∧ 0 ≤ y.toInt ∧ y.toInt < s.cfg.memSize ∧
      a = y.toInt.toNat ∧ t.mem.read a = s.acc

/-- spec/40_execution_cycle.md section 5 (derived there): `pc` becomes -1 by a HLT that completes or by a
taken jump whose resolved operand is -2, and in no other way. -/
def Obligations.MinusOneIsReachedInTwoWays : Prop :=
  ∀ s t, s.Inv → step s = .next t → s.pc ≠ -1 → t.pc = -1 →
    (∃ k, InstrAt s s.pc (.hlt k)) ∨
    (∃ i, InstrAt s s.pc i ∧ OperandIs s i.operand (-2) ∧
      ((∃ k, i = .jmp k) ∨ ((∃ k, i = .jpz k) ∧ s.acc = 0) ∨ ((∃ k, i = .jpn k) ∧ s.acc ≠ 0)))

/-- spec/40_execution_cycle.md section 5: a run ends HALTED only by a halt check that sees `pc = -1`; the
final state differs from the one before in `run` alone. -/
def Obligations.HaltedOnlyByTheHaltCheck : Prop :=
  ∀ s t, step s = .next t → t.run = .halted → s.pc = -1 ∧ t = { s with run := .halted }

/-! ## Memory -/

/-- R52 and R53, whole: a read or a write outside `[0, MEMSIZE)` raises MemoryAccessError with the address
and no cell changes; inside, a read gives the cell, a write makes that cell the value and leaves every
other one. The premise `s.mem.wf` is the model's own form of memory (log 11) and no part of the rules: it
rules out lists that are the memory of no run. That a write keeps the form is
`MemoryWriteKeepsTheCanonicalForm`. -/
def Obligations.MemoryPrimitivesCheckTheirAddress : Prop :=
  ∀ (s : State) (a v : Word),
    (a.toInt < 0 ∨ (s.cfg.memSize : Int) ≤ a.toInt →
      memRead a s = .error (.memoryAccessError a) ∧ memWrite a v s = .error (.memoryAccessError a)) ∧
    (0 ≤ a.toInt → a.toInt < s.cfg.memSize → memRead a s = .ok (s.mem.read a.toInt.toNat)) ∧
    (s.mem.wf = true → 0 ≤ a.toInt → a.toInt < s.cfg.memSize →
      ∃ m : Memory, memWrite a v s = .ok { s with mem := m } ∧
        memRead a { s with mem := m } = .ok v ∧
        ∀ b, b ≠ a → memRead b { s with mem := m } = memRead b s)

/-- The model's own form of the data memory (log 11): two memories in canonical form with equal cells are
equal data. -/
def Obligations.MemoriesWithEqualCellsAreEqual : Prop :=
  ∀ m₁ m₂ : Memory, m₁.wf = true → m₂.wf = true → (∀ a, m₁.read a = m₂.read a) → m₁ = m₂

/-! ## Encoding -/

/-- spec/30_encoding.md sections 1 to 3 (the layout and the numbers are the spec's decisions D4 and D6):
decoding the word of an instruction gives the instruction, for all 22 and every operand. -/
def Obligations.DecodeOfEncode : Prop :=
  ∀ i, decode (encode i) = .ok i

/-- The other direction: a word that decodes is the word of what it decodes to, so no two words share an
instruction. -/
def Obligations.EncodeOfDecode : Prop :=
  ∀ w i, decode w = .ok i → encode i = w

/-- spec/30_encoding.md section 4: exactly the opcodes 22 to 255 have no row in the map; the decoder names
the opcode it rejects (the numbers are the spec's decision D4). -/
def Obligations.OpcodesWithoutARowAreRejected : Prop :=
  ∀ w, decode w = .error (.unknownOpcode (InsnWord.opcode w)) ↔ 22 ≤ (InsnWord.opcode w).toNat

/-- Words written out from the layout of spec/30_encoding.md (and the programs of spec/95_test_vectors.md)
decode to the instructions they stand for, one of each family. -/
def Obligations.WordsFromTheSpecDecode : Prop :=
  decode 0x0000000000 = .ok (.nop 0) ∧ decode 0x01FFFFFFFF = .ok (.mov (-1)) ∧
  decode 0x0200000003 = .ok (.add 3) ∧ decode 0x06FFFFFFFD = .ok (.and (-3)) ∧
  decode 0x0C00000004 = .ok (.rotl 4) ∧ decode 0x0FFFFFFFFE = .ok (.jmp (-2)) ∧
  decode 0x1200000064 = .ok (.sav 100) ∧ decode 0x1400000000 = .ok (.hlt 0) ∧
  decode 0x1500000000 = .ok (.adr 0) ∧ decode 0x1600000007 = .error (.unknownOpcode 22)

/-- spec/30_encoding.md section 6 (the binary form is the spec's decision D6): a record that fits has the
word with its two fields; one that does not fit has none; and the record of an instruction has the
instruction's word. -/
def Obligations.RecordsThatDoNotFitAreRefused : Prop :=
  (∀ r : Record, 0 ≤ r.opcode → r.opcode ≤ 255 → -(2 ^ 31) ≤ r.operand → r.operand < 2 ^ 31 →
    ∃ w, r.toWord = some w ∧ ((InsnWord.opcode w).toNat : Int) = r.opcode ∧
      (InsnWord.operand w).toInt = r.operand) ∧
  (∀ r : Record, ¬(0 ≤ r.opcode ∧ r.opcode ≤ 255 ∧ -(2 ^ 31) ≤ r.operand ∧ r.operand < 2 ^ 31) →
    r.toWord = none) ∧
  (∀ i : Instr, i.toRecord.toWord = some (encode i))

/-! ## Reset and the host -/

/-- spec/10_state.md section 6 and spec/70_reset_and_hazards.md section 1: what reset leaves, from any state
before (the run state, the record and the latency total are the spec's decisions D12 and D14). The values
the spec leaves undefined are not claimed. -/
def Obligations.ResetLeavesTheResetValues : Prop :=
  (∀ cfg prog, ∀ s, s = State.resetWith cfg prog →
    s.acc = 0 ∧ s.pc = 0 ∧ s.ind = false ∧ s.cl.valid = false ∧ (∀ a, s.mem.read a = 0) ∧
    s.run = .running ∧ s.fault.code = .none ∧ s.lat = 0 ∧ s.prog = prog ∧ s.cfg = cfg) ∧
  (∀ s t : State, t = s.hostReset →
    t.acc = 0 ∧ t.pc = 0 ∧ t.ind = false ∧ t.cl.valid = false ∧ (∀ a, t.mem.read a = 0) ∧
    t.run = .running ∧ t.fault.code = .none ∧ t.lat = 0 ∧ t.prog = s.prog ∧ t.cfg = s.cfg)

/-- spec/70_reset_and_hazards.md section 1 (derived there): the first step after reset fetches address 0, in
direct mode; with an empty program it raises ProgramBoundsError(0). -/
def Obligations.FirstStepFetchesAddressZero : Prop :=
  ∀ (cfg : Params) (prog : List InsnWord), configLegal (State.resetWith cfg prog) = true →
    (∀ w i, prog[0]? = some w → decode w = .ok i →
      ∃ l n, step (State.resetWith cfg prog) =
        exec i { State.resetWith cfg prog with cl := l, lat := n }) ∧
    (prog = [] → ∃ t, step (State.resetWith cfg prog) = .next t ∧ t.run = .faulted ∧
      t.fault.code = .programBoundsError ∧ t.fault.pc = 0 ∧ t.fault.addr = 0)

/-- spec/70_reset_and_hazards.md section 3: the final report is readable when the run is HALTED and holds the
accumulator and all the cells in address order (that `lat` can be read too is the spec's decision D14); the
fault record is readable when it is FAULTED. -/
def Obligations.ReportsAreReadableAtTheEnd : Prop :=
  ∀ s : State,
    (s.run = .halted → ∃ cells, s.finalReport = some (s.acc, cells, s.lat) ∧
      cells.length = s.cfg.memSize ∧ ∀ a < s.cfg.memSize, cells[a]? = some (s.mem.read a)) ∧
    (s.run ≠ .halted → s.finalReport = none) ∧
    (s.run = .faulted → s.faultReport = some s.fault) ∧
    (s.run ≠ .faulted → s.faultReport = none)

/-- The model's own interface (log 3): a word placed by `withFetchWord` is the one the very next step runs,
in a state with the accumulator, the mode and the memory as they were. -/
def Obligations.PlacedWordRunsNext : Prop :=
  ∀ (s : State) (w : Nat) (i : Instr), w < 2 ^ 40 → decode (BitVec.ofNat 40 w) = .ok i →
    ∃ u, step (s.withFetchWord 40 w) = exec i u ∧ u.acc = s.acc ∧ u.ind = s.ind ∧ u.mem = s.mem ∧
      u.run = .running

/-- The model's own form of the data memory (log 11), which the spec does not speak of: a write keeps it, in
every state and at every address it does not raise for. -/
def Obligations.MemoryWriteKeepsTheCanonicalForm : Prop :=
  ∀ (s t : State) (a v : Word), s.mem.wf = true → memWrite a v s = .ok t → t.mem.wf = true
end

