-- ==== Sys2Proof/Laws/State.lean ====
section
/-! SUPPORT. What each named update of State does to each field: one lemma per field per update, true by
definition, so that no proof unfolds a record update. -/

namespace Sys2Proof.Machine

variable (s : State)

/-! ## commit -/

@[simp] theorem State.commit_acc (a t : Word) : (s.commit a t).acc = a := rfl
@[simp] theorem State.commit_pc (a t : Word) : (s.commit a t).pc = wrap (t.toInt + 1) := rfl
@[simp] theorem State.commit_ind (a t : Word) : (s.commit a t).ind = s.ind := rfl
@[simp] theorem State.commit_mem (a t : Word) : (s.commit a t).mem = s.mem := rfl
@[simp] theorem State.commit_run (a t : Word) : (s.commit a t).run = s.run := rfl
@[simp] theorem State.commit_fault (a t : Word) : (s.commit a t).fault = s.fault := rfl
@[simp] theorem State.commit_cl (a t : Word) : (s.commit a t).cl = s.cl := rfl
@[simp] theorem State.commit_lat (a t : Word) : (s.commit a t).lat = s.lat := rfl
@[simp] theorem State.commit_prog (a t : Word) : (s.commit a t).prog = s.prog := rfl
@[simp] theorem State.commit_cfg (a t : Word) : (s.commit a t).cfg = s.cfg := rfl
@[simp] theorem State.commit_freeIx (a t : Word) : (s.commit a t).freeIx = s.freeIx := rfl

/-! ## setMem -/

@[simp] theorem State.setMem_acc (m : Memory) : (s.setMem m).acc = s.acc := rfl
@[simp] theorem State.setMem_pc (m : Memory) : (s.setMem m).pc = s.pc := rfl
@[simp] theorem State.setMem_ind (m : Memory) : (s.setMem m).ind = s.ind := rfl
@[simp] theorem State.setMem_mem (m : Memory) : (s.setMem m).mem = m := rfl
@[simp] theorem State.setMem_run (m : Memory) : (s.setMem m).run = s.run := rfl
@[simp] theorem State.setMem_fault (m : Memory) : (s.setMem m).fault = s.fault := rfl
@[simp] theorem State.setMem_cl (m : Memory) : (s.setMem m).cl = s.cl := rfl
@[simp] theorem State.setMem_lat (m : Memory) : (s.setMem m).lat = s.lat := rfl
@[simp] theorem State.setMem_prog (m : Memory) : (s.setMem m).prog = s.prog := rfl
@[simp] theorem State.setMem_cfg (m : Memory) : (s.setMem m).cfg = s.cfg := rfl
@[simp] theorem State.setMem_freeIx (m : Memory) : (s.setMem m).freeIx = s.freeIx := rfl

/-! ## toggleInd -/

@[simp] theorem State.toggleInd_acc : (s.toggleInd).acc = s.acc := rfl
@[simp] theorem State.toggleInd_pc : (s.toggleInd).pc = s.pc := rfl
@[simp] theorem State.toggleInd_ind : (s.toggleInd).ind = !s.ind := rfl
@[simp] theorem State.toggleInd_mem : (s.toggleInd).mem = s.mem := rfl
@[simp] theorem State.toggleInd_run : (s.toggleInd).run = s.run := rfl
@[simp] theorem State.toggleInd_fault : (s.toggleInd).fault = s.fault := rfl
@[simp] theorem State.toggleInd_cl : (s.toggleInd).cl = s.cl := rfl
@[simp] theorem State.toggleInd_lat : (s.toggleInd).lat = s.lat := rfl
@[simp] theorem State.toggleInd_prog : (s.toggleInd).prog = s.prog := rfl
@[simp] theorem State.toggleInd_cfg : (s.toggleInd).cfg = s.cfg := rfl
@[simp] theorem State.toggleInd_freeIx : (s.toggleInd).freeIx = s.freeIx := rfl

/-! ## delay -/

@[simp] theorem State.delay_acc (n : Nat) : (s.delay n).acc = s.acc := rfl
@[simp] theorem State.delay_pc (n : Nat) : (s.delay n).pc = s.pc := rfl
@[simp] theorem State.delay_ind (n : Nat) : (s.delay n).ind = s.ind := rfl
@[simp] theorem State.delay_mem (n : Nat) : (s.delay n).mem = s.mem := rfl
@[simp] theorem State.delay_run (n : Nat) : (s.delay n).run = s.run := rfl
@[simp] theorem State.delay_fault (n : Nat) : (s.delay n).fault = s.fault := rfl
@[simp] theorem State.delay_cl (n : Nat) : (s.delay n).cl = s.cl := rfl
@[simp] theorem State.delay_lat (n : Nat) : (s.delay n).lat = s.lat + n := rfl
@[simp] theorem State.delay_prog (n : Nat) : (s.delay n).prog = s.prog := rfl
@[simp] theorem State.delay_cfg (n : Nat) : (s.delay n).cfg = s.cfg := rfl
@[simp] theorem State.delay_freeIx (n : Nat) : (s.delay n).freeIx = s.freeIx := rfl

/-! ## fillLine -/

@[simp] theorem State.fillLine_acc (p : Word) (w : InsnWord) : (s.fillLine p w).acc = s.acc := rfl
@[simp] theorem State.fillLine_pc (p : Word) (w : InsnWord) : (s.fillLine p w).pc = s.pc := rfl
@[simp] theorem State.fillLine_ind (p : Word) (w : InsnWord) : (s.fillLine p w).ind = s.ind := rfl
@[simp] theorem State.fillLine_mem (p : Word) (w : InsnWord) : (s.fillLine p w).mem = s.mem := rfl
@[simp] theorem State.fillLine_run (p : Word) (w : InsnWord) : (s.fillLine p w).run = s.run := rfl
@[simp] theorem State.fillLine_fault (p : Word) (w : InsnWord) : (s.fillLine p w).fault = s.fault := rfl
@[simp] theorem State.fillLine_cl (p : Word) (w : InsnWord) : (s.fillLine p w).cl = ⟨true, p, w⟩ := rfl
@[simp] theorem State.fillLine_lat (p : Word) (w : InsnWord) : (s.fillLine p w).lat = s.lat := rfl
@[simp] theorem State.fillLine_prog (p : Word) (w : InsnWord) : (s.fillLine p w).prog = s.prog := rfl
@[simp] theorem State.fillLine_cfg (p : Word) (w : InsnWord) : (s.fillLine p w).cfg = s.cfg := rfl
@[simp] theorem State.fillLine_freeIx (p : Word) (w : InsnWord) : (s.fillLine p w).freeIx = s.freeIx := rfl

/-! ## halt -/

@[simp] theorem State.halt_acc : (s.halt).acc = s.acc := rfl
@[simp] theorem State.halt_pc : (s.halt).pc = s.pc := rfl
@[simp] theorem State.halt_ind : (s.halt).ind = s.ind := rfl
@[simp] theorem State.halt_mem : (s.halt).mem = s.mem := rfl
@[simp] theorem State.halt_run : (s.halt).run = .halted := rfl
@[simp] theorem State.halt_fault : (s.halt).fault = s.fault := rfl
@[simp] theorem State.halt_cl : (s.halt).cl = s.cl := rfl
@[simp] theorem State.halt_lat : (s.halt).lat = s.lat := rfl
@[simp] theorem State.halt_prog : (s.halt).prog = s.prog := rfl
@[simp] theorem State.halt_cfg : (s.halt).cfg = s.cfg := rfl
@[simp] theorem State.halt_freeIx : (s.halt).freeIx = s.freeIx := rfl

/-! ## raise -/

@[simp] theorem State.raise_acc (e : FatalError) (op : Option Opcode) : (s.raise e op).acc = s.acc := rfl
@[simp] theorem State.raise_pc (e : FatalError) (op : Option Opcode) : (s.raise e op).pc = s.pc := rfl
@[simp] theorem State.raise_ind (e : FatalError) (op : Option Opcode) : (s.raise e op).ind = s.ind := rfl
@[simp] theorem State.raise_mem (e : FatalError) (op : Option Opcode) : (s.raise e op).mem = s.mem := rfl
@[simp] theorem State.raise_run (e : FatalError) (op : Option Opcode) : (s.raise e op).run = .faulted := rfl
@[simp] theorem State.raise_fault (e : FatalError) (op : Option Opcode) :
    (s.raise e op).fault =
      ⟨e.code, s.pc, e.addr?.getD (Config.undefinedAddr s.freeIx), op.getD (Config.undefinedOpcode s.freeIx)⟩ := rfl
@[simp] theorem State.raise_cl (e : FatalError) (op : Option Opcode) : (s.raise e op).cl = s.cl := rfl
@[simp] theorem State.raise_lat (e : FatalError) (op : Option Opcode) : (s.raise e op).lat = s.lat := rfl
@[simp] theorem State.raise_prog (e : FatalError) (op : Option Opcode) : (s.raise e op).prog = s.prog := rfl
@[simp] theorem State.raise_cfg (e : FatalError) (op : Option Opcode) : (s.raise e op).cfg = s.cfg := rfl
@[simp] theorem State.raise_freeIx (e : FatalError) (op : Option Opcode) :
    (s.raise e op).freeIx =
      s.freeIx + 1 := rfl

end Sys2Proof.Machine
end

