-- ==== Sys2Proof/Laws/Memory.lean ====
section
/-! SUPPORT. The laws of the data memory: read after write, what a write keeps, and that equal contents
are equal data (spec/20_memory.md R50 to R53, R63). -/

namespace Sys2Proof.Machine

theorem Memory.wfFrom_cons (lo a : Nat) (v : Word) (m : Memory) :
    Memory.wfFrom lo ((a, v) :: m) = true ↔ lo ≤ a ∧ v ≠ 0#32 ∧ Memory.wfFrom (a + 1) m = true := by
  simp [Memory.wfFrom, and_assoc]

theorem Memory.wfFrom_mono {lo lo' : Nat} {m : Memory} (h : Memory.wfFrom lo m = true) (hl : lo' ≤ lo) :
    Memory.wfFrom lo' m = true := by
  cases m with
  | nil => rfl
  | cons c m =>
    obtain ⟨a, v⟩ := c
    rw [Memory.wfFrom_cons] at h ⊢
    exact ⟨hl.trans h.1, h.2⟩

/-- A cell below every listed address is not listed, so it reads 0. -/
theorem Memory.read_eq_zero_of_lt {lo a : Nat} {m : Memory} (h : Memory.wfFrom lo m = true) (ha : a < lo) :
    m.read a = 0#32 := by
  induction m generalizing lo with
  | nil => rfl
  | cons c m ih =>
    obtain ⟨b, v⟩ := c
    rw [Memory.wfFrom_cons] at h
    have hab : a ≠ b := by omega
    simpa [Memory.read, hab] using ih h.2.2 (by omega)

theorem Memory.read_write_same {lo : Nat} {m : Memory} (h : Memory.wfFrom lo m = true) (a : Nat) (v : Word) :
    (m.write a v).read a = v := by
  induction m generalizing lo with
  | nil => by_cases hv : v = 0#32 <;> simp [Memory.write, Memory.read, hv]
  | cons c m ih =>
    obtain ⟨b, u⟩ := c
    rw [Memory.wfFrom_cons] at h
    rcases lt_trichotomy a b with hab | hab | hab
    · have hne : a ≠ b := by omega
      by_cases hv : v = 0#32
      · simpa [Memory.write, Memory.read, hab, hv, hne] using
          Memory.read_eq_zero_of_lt h.2.2 (by omega)
      · simp [Memory.write, Memory.read, hab, hv]
    · by_cases hv : v = 0#32
      · simpa [Memory.write, Memory.read, hab, hv] using Memory.read_eq_zero_of_lt h.2.2 (by omega)
      · simp [Memory.write, Memory.read, hab, hv]
    · have hne : a ≠ b := by omega
      have hlt : ¬ a < b := by omega
      simpa [Memory.write, Memory.read, hlt, hne] using ih h.2.2

/-- A write leaves every other cell alone; this needs no form. -/
theorem Memory.read_write_other (m : Memory) {a b : Nat} (v : Word) (hb : b ≠ a) :
    (m.write a v).read b = m.read b := by
  induction m with
  | nil => by_cases hv : v = 0#32 <;> simp [Memory.write, Memory.read, hv, hb]
  | cons c m ih =>
    obtain ⟨d, u⟩ := c
    rcases lt_trichotomy a d with had | had | had
    · by_cases hv : v = 0#32 <;> simp [Memory.write, Memory.read, had, hv, hb]
    · subst had
      by_cases hv : v = 0#32 <;> simp [Memory.write, Memory.read, hv, hb]
    · have hne : a ≠ d := by omega
      have hlt : ¬ a < d := by omega
      simp [Memory.write, Memory.read, hlt, hne, ih]

theorem Memory.wfFrom_write {lo : Nat} {m : Memory} (h : Memory.wfFrom lo m = true) {a : Nat} (ha : lo ≤ a)
    (v : Word) : Memory.wfFrom lo (m.write a v) = true := by
  induction m generalizing lo with
  | nil => by_cases hv : v = 0#32 <;> simp [Memory.write, Memory.wfFrom, hv, ha]
  | cons c m ih =>
    obtain ⟨b, u⟩ := c
    have h' := (Memory.wfFrom_cons ..).1 h
    rcases lt_trichotomy a b with hab | hab | hab
    · by_cases hv : v = 0#32
      · simpa [Memory.write, hab, hv] using h
      · simp only [Memory.write, hab, hv, if_true, if_false]
        rw [Memory.wfFrom_cons, Memory.wfFrom_cons]
        exact ⟨ha, hv, hab, h'.2⟩
    · subst hab
      by_cases hv : v = 0#32
      · simpa [Memory.write, hv] using Memory.wfFrom_mono h'.2.2 (by omega)
      · simp only [Memory.write, lt_irrefl, hv, if_true, if_false]
        rw [Memory.wfFrom_cons]
        exact ⟨ha, hv, h'.2.2⟩
    · have hne : a ≠ b := by omega
      have hlt : ¬ a < b := by omega
      simp only [Memory.write, hlt, hne, if_false]
      rw [Memory.wfFrom_cons]
      exact ⟨h'.1, h'.2.1, ih h'.2.2 hab⟩

/-- Every write keeps the canonical form. -/
theorem Memory.wf_write {m : Memory} (h : m.wf = true) (a : Nat) (v : Word) : (m.write a v).wf = true :=
  Memory.wfFrom_write h (Nat.zero_le a) v

/-- A write inside the bound keeps the bound. -/
theorem Memory.below_write {n : Nat} {m : Memory} (h : m.below n = true) {a : Nat} (ha : a < n) (v : Word) :
    (m.write a v).below n = true := by
  induction m with
  | nil => by_cases hv : v = 0#32 <;> simp [Memory.write, Memory.below, hv, ha]
  | cons c m ih =>
    obtain ⟨b, u⟩ := c
    have h' : b < n ∧ Memory.below n m = true := by simpa [Memory.below] using h
    have key : ∀ m' : Memory, Memory.below n m' = true ↔ ∀ x ∈ m', x.1 < n := by
      intro m'; simp [Memory.below]
    have ih := (key _).1 (ih h'.2)
    rw [key] at h h' ⊢
    intro x hx
    simp only [Memory.write] at hx
    split at hx
    · split at hx
      · exact h x hx
      · rcases List.mem_cons.1 hx with rfl | hx
        · exact ha
        · exact h x hx
    · split at hx
      · split at hx
        · exact h'.2 x hx
        · rcases List.mem_cons.1 hx with rfl | hx
          · exact ha
          · exact h'.2 x hx
      · rcases List.mem_cons.1 hx with rfl | hx
        · exact h'.1
        · exact ih x hx

/-- A cell outside the bound reads 0. -/
theorem Memory.read_of_below {n a : Nat} {m : Memory} (h : m.below n = true) (ha : n ≤ a) : m.read a = 0#32 := by
  induction m with
  | nil => rfl
  | cons c m ih =>
    obtain ⟨b, v⟩ := c
    have h' : b < n ∧ Memory.below n m = true := by simpa [Memory.below] using h
    have hab : a ≠ b := by omega
    simpa [Memory.read, hab] using ih h'.2

end Sys2Proof.Machine
end

