-- ==== Sys2Proof/Laws/Ops.lean ====
section
/-! SUPPORT. One lemma per shared operation, saying once all it can do: the integer notation in terms of
bit vectors, the bounds check, the memory primitives, operand resolution and the frame of an arm. -/

namespace Sys2Proof.Machine

/-! ## Integers -/

theorem toInt_wrap (z : Int) : (wrap z).toInt = z.bmod (2 ^ 32) :=
  BitVec.toInt_ofInt z

/-- `wrap` gives the integer itself where it fits a word (R8). -/
theorem toInt_wrap_of_fits {z : Int} (h₁ : -(2 ^ 31) ≤ z) (h₂ : z < 2 ^ 31) : (wrap z).toInt = z := by
  rw [toInt_wrap]
  exact Int.bmod_eq_of_le (by omega) (by omega)

@[simp] theorem wrap_toInt (a : Word) : wrap a.toInt = a :=
  BitVec.ofInt_toInt

@[simp] theorem wrap_natCast (n : Nat) : wrap (n : Int) = BitVec.ofNat 32 n := by
  simp [wrap]

@[simp] theorem wrap_add (a y : Word) : wrap (a.toInt + y.toInt) = a + y := by
  simp [wrap, BitVec.ofInt_add]

@[simp] theorem wrap_sub (a y : Word) : wrap (a.toInt - y.toInt) = a - y := by
  apply BitVec.eq_of_toInt_eq
  rw [toInt_wrap, BitVec.toInt_sub]

@[simp] theorem wrap_mul (a y : Word) : wrap (a.toInt * y.toInt) = a * y := by
  simp [wrap, BitVec.ofInt_mul]

/-- The universal increment, as addition of words. -/
@[simp] theorem wrap_succ (t : Word) : wrap (t.toInt + 1) = t + 1#32 := by
  simp [wrap, BitVec.ofInt_add]

/-- `tdiv` of R8 is the library's truncating division. -/
theorem tdiv_eq (a y : Int) : tdiv a y = a.tdiv y := by
  rcases eq_or_ne a 0 with rfl | ha
  · simp [tdiv]
  rcases eq_or_ne y 0 with rfl | hy
  · simp [tdiv]
  have h : a.tdiv y = (a.sign * a.natAbs).tdiv (y.sign * y.natAbs) := by
    rw [Int.sign_mul_natAbs, Int.sign_mul_natAbs]
  rw [h, tdiv]
  rcases ha.lt_or_gt with ha | ha <;> rcases hy.lt_or_gt with hy | hy <;>
    simp [Int.sign_eq_neg_one_of_neg, Int.sign_eq_one_of_pos, ha, hy, Int.neg_tdiv, Int.tdiv_neg,
      Int.tdiv_eq_ediv_of_nonneg (abs_nonneg a)]

/-- A word is 0 exactly when its signed reading is. -/
theorem toInt_eq_zero {a : Word} : a.toInt = 0 ↔ a = 0#32 := by
  constructor
  · intro h
    apply BitVec.eq_of_toInt_eq
    simpa using h
  · rintro rfl
    rfl

@[simp] theorem truthy_iff (a : Word) : truthy a = true ↔ a ≠ 0#32 := by
  simp [truthy, toInt_eq_zero]

@[simp] theorem truthy_false_iff (a : Word) : truthy a = false ↔ a = 0#32 := by
  simp [truthy, toInt_eq_zero]

/-! ## The bounds check and the memory primitives -/

theorem inBounds_iff (a : Word) (n : Nat) : inBounds a n = true ↔ 0 ≤ a.toInt ∧ a.toInt < n := by
  simp [inBounds]

theorem inBounds_false_iff (a : Word) (n : Nat) : inBounds a n = false ↔ a.toInt < 0 ∨ (n : Int) ≤ a.toInt := by
  rw [← Bool.not_eq_true, inBounds_iff]
  omega

/-- An address that is not negative has one reading. -/
theorem toNat_of_nonneg {a : Word} (h : 0 ≤ a.toInt) : a.toNat = a.toInt.toNat := by
  have h₁ := BitVec.toInt_eq_toNat_cond a
  have h₂ := a.isLt
  split at h₁ <;> omega

theorem memRead_ok {a : Word} {s : State} (h : inBounds a s.cfg.memSize = true) :
    memRead a s = .ok (s.mem.read a.toNat) := by
  simp [memRead, h]

theorem memRead_error {a : Word} {s : State} (h : inBounds a s.cfg.memSize = false) :
    memRead a s = .error (.memoryAccessError a) := by
  simp [memRead, h]

theorem memWrite_ok {a v : Word} {s : State} (h : inBounds a s.cfg.memSize = true) :
    memWrite a v s = .ok (s.setMem (s.mem.write a.toNat v)) := by
  simp [memWrite, h]

theorem memWrite_error {a v : Word} {s : State} (h : inBounds a s.cfg.memSize = false) :
    memWrite a v s = .error (.memoryAccessError a) := by
  simp [memWrite, h]

/-- The one error a program read raises. -/
theorem progRead_cases (a : Word) (prog : List InsnWord) :
    (∃ w, progRead a prog = .ok w ∧ 0 ≤ a.toInt ∧ prog[a.toNat]? = some w) ∨
      (progRead a prog = .error (.programBoundsError a) ∧ (a.toInt < 0 ∨ (prog.length : Int) ≤ a.toInt)) := by
  unfold progRead
  by_cases h : 0 ≤ a.toInt
  · rw [if_pos h]
    have hn := toNat_of_nonneg h
    cases hp : prog[a.toNat]? with
    | some w => exact .inl ⟨w, rfl, h, rfl⟩
    | none =>
      have := List.getElem?_eq_none_iff.1 hp
      exact .inr ⟨rfl, .inr (by omega)⟩
  · rw [if_neg h]
    exact .inr ⟨rfl, .inl (by omega)⟩

theorem progRead_ok {a : Word} {prog : List InsnWord} {w : InsnWord} (h : 0 ≤ a.toInt)
    (hw : prog[a.toNat]? = some w) : progRead a prog = .ok w := by
  simp [progRead, h, hw]

theorem progRead_error {a : Word} {prog : List InsnWord} (h : a.toInt < 0 ∨ (prog.length : Int) ≤ a.toInt) :
    progRead a prog = .error (.programBoundsError a) := by
  rcases progRead_cases a prog with ⟨w, -, h₀, hw⟩ | ⟨he, -⟩
  · have := (List.getElem?_eq_some_iff.1 hw).1
    have := toNat_of_nonneg h₀
    omega
  · exact he

/-! ## Operand resolution -/

/-- All that resolution can do: an operand, or the one error it raises. -/
theorem resolve_cases (k : Word) (s : State) :
    (∃ y, resolve k s = .ok y ∧ OperandIs s k y) ∨
      (resolve k s = .error (.memoryAccessError k) ∧ OperandFails s k) := by
  unfold resolve
  cases hi : s.ind with
  | false => exact .inl ⟨k, by simp, .inl ⟨hi, rfl⟩⟩
  | true =>
    cases hb : inBounds k s.cfg.memSize with
    | true =>
      have hk := (inBounds_iff ..).1 hb
      exact .inl ⟨s.mem.read k.toNat, by simp [memRead_ok hb], .inr ⟨hi, hk.1, hk.2, by rw [toNat_of_nonneg hk.1]⟩⟩
    | false => exact .inr ⟨by simp [memRead_error hb], hi, (inBounds_false_iff ..).1 hb⟩

theorem resolve_ok {k y : Word} {s : State} (h : OperandIs s k y) : resolve k s = .ok y := by
  rcases h with ⟨hi, rfl⟩ | ⟨hi, h₀, h₁, rfl⟩
  · simp [resolve, hi]
  · rw [resolve, if_pos hi, memRead_ok ((inBounds_iff ..).2 ⟨h₀, h₁⟩), toNat_of_nonneg h₀]

theorem resolve_error {k : Word} {s : State} (h : OperandFails s k) :
    resolve k s = .error (.memoryAccessError k) := by
  rw [resolve, if_pos h.1, memRead_error ((inBounds_false_iff ..).2 h.2)]

/-- With its operand resolved, an instruction is its arm. -/
theorem withOperand_ok {op : Opcode} {k y : Word} {s : State} {arm : Word → StepResult}
    (h : OperandIs s k y) : withOperand op k s arm = arm y := by
  rw [withOperand, resolve_ok h]

/-- With its operand out of range, an instruction raises and its arm does not run. -/
theorem withOperand_error {op : Opcode} {k : Word} {s : State} {arm : Word → StepResult}
    (h : OperandFails s k) :
    withOperand op k s arm = .next (s.raise (.memoryAccessError k) (some op)) := by
  rw [withOperand, resolve_error h]
  rfl

/-- All that the end of an arm does. -/
theorem finish_eq (a t : Word) (s : State) : finish a t s = .next { s with acc := a, pc := t + 1 } := by
  rw [finish, State.commit, wrap_succ]
  rfl

end Sys2Proof.Machine
end

