-- ==== Sys2Proof/Laws/Bitwise.lean ====
section
/-! SUPPORT. The rotations of spec/44_bitwise_rotate.md, written there on unsigned numbers, are the
rotations of bit vectors. -/

namespace Sys2Proof.Machine

theorem rotateCount_lt (y : Word) : rotateCount y < 32 := by
  unfold rotateCount
  omega

/-- The two parts of a rotation, as numbers, fill disjoint bits. -/
theorem toNat_shiftLeft_or_ushiftRight (a : Word) {r : Nat} (hr : r ≤ 32) :
    (a <<< r ||| a >>> (32 - r)).toNat = a.toNat * 2 ^ r % 2 ^ 32 + a.toNat / 2 ^ (32 - r) := by
  have ha := a.isLt
  have hpow : (2 : Nat) ^ 32 = 2 ^ (32 - r) * 2 ^ r := by rw [← pow_add]; congr 1; omega
  have hlow : a.toNat / 2 ^ (32 - r) < 2 ^ r := by
    rw [Nat.div_lt_iff_lt_mul (by positivity), mul_comm, ← hpow]
    exact ha
  have hhigh : a.toNat * 2 ^ r % 2 ^ 32 = 2 ^ r * (a.toNat % 2 ^ (32 - r)) := by
    rw [hpow, Nat.mul_mod_mul_right, mul_comm]
  rw [BitVec.toNat_or, BitVec.toNat_shiftLeft, BitVec.toNat_ushiftRight, Nat.shiftLeft_eq,
    Nat.shiftRight_eq_div_pow, hhigh, Nat.two_pow_add_eq_or_of_lt hlow]

/-- R164's formula is the rotation of the 32 bits to the left. -/
theorem rotateLeft_eq (a y : Word) : rotateLeft a y = a.rotateLeft (rotateCount y) := by
  have hr := rotateCount_lt y
  unfold rotateLeft
  generalize rotateCount y = r at hr ⊢
  by_cases h₀ : r = 0
  · subst h₀
    simp [BitVec.rotateLeft, BitVec.rotateLeftAux, BitVec.ushiftRight_eq_zero]
  · apply BitVec.eq_of_toNat_eq
    simp only [h₀, if_false, wrap_natCast, BitVec.toNat_ofNat]
    rw [BitVec.rotateLeft_eq_rotateLeftAux_of_lt hr, BitVec.rotateLeftAux,
      toNat_shiftLeft_or_ushiftRight a hr.le, Nat.mod_eq_of_lt]
    rw [← toNat_shiftLeft_or_ushiftRight a hr.le]
    exact BitVec.isLt _

/-- R165's formula is the rotation of the 32 bits to the right. -/
theorem rotateRight_eq (a y : Word) : rotateRight a y = a.rotateRight (rotateCount y) := by
  have hr := rotateCount_lt y
  unfold rotateRight
  generalize rotateCount y = r at hr ⊢
  by_cases h₀ : r = 0
  · subst h₀
    simp [BitVec.rotateRight, BitVec.rotateRightAux, BitVec.shiftLeft_eq_zero]
  · have hs : 32 - (32 - r) = r := by omega
    have h := toNat_shiftLeft_or_ushiftRight a (r := 32 - r) (by omega)
    rw [hs] at h
    apply BitVec.eq_of_toNat_eq
    simp only [h₀, if_false, wrap_natCast, BitVec.toNat_ofNat]
    rw [BitVec.rotateRight_eq_rotateRightAux_of_lt hr, BitVec.rotateRightAux, BitVec.or_comm, h, add_comm,
      Nat.mod_eq_of_lt]
    rw [← h]
    exact BitVec.isLt _

end Sys2Proof.Machine
end

