-- ==== Sys2Proof/Laws/Exec.lean ====
section
/-! SUPPORT. The inversion lemma of `exec`: all that an instruction can do, once. -/

namespace Sys2Proof.Machine

/-- The ways an instruction can raise (R242, R244), with the error it raises. -/
def RaisesError (i : Instr) (s : State) (e : FatalError) : Prop :=
  (OperandFails s i.operand ∧ e = .memoryAccessError i.operand) ∨
  (∃ k, i = .div k ∧ OperandIs s k 0#32 ∧ e = .divisionByZero) ∨
  (∃ k y, (i = .sav k ∨ i = .lod k) ∧ OperandIs s k y ∧ inBounds y s.cfg.memSize = false ∧
    e = .memoryAccessError y)

/-- What an instruction that completes has done before its post-processing: SAV has written one cell, ADR
has inverted the mode, every other one nothing. -/
def SideEffect (i : Instr) (s u : State) : Prop :=
  (∃ k y, i = .sav k ∧ OperandIs s k y ∧ inBounds y s.cfg.memSize = true ∧
    u = s.setMem (s.mem.write y.toNat s.acc)) ∨
  (∃ k, i = .adr k ∧ u = s.toggleInd) ∨
  ((∀ k, i ≠ .sav k) ∧ (∀ k, i ≠ .adr k) ∧ u = s)

/-- The target an instruction that completes gives (R23): its own address, the operand of a taken jump, or
the sentinel of HLT. -/
def TargetIs (i : Instr) (s : State) (t : Word) : Prop :=
  (t = s.pc ∧ ∀ k, i ≠ .hlt k) ∨
  (∃ k, OperandIs s k t ∧ (i = .jmp k ∨ (i = .jpz k ∧ s.acc = 0#32) ∨ (i = .jpn k ∧ s.acc ≠ 0#32))) ∨
  (∃ k, i = .hlt k ∧ t = wrap (-2))

/-- An instruction takes the frame of its arm: its operand fails and it raises, or its operand is there
and its arm runs. -/
theorem withOperand_cases (op : Opcode) (k : Word) (s : State) (arm : Word → StepResult) :
    (OperandFails s k ∧ withOperand op k s arm = .next (s.raise (.memoryAccessError k) (some op))) ∨
      (∃ y, OperandIs s k y ∧ withOperand op k s arm = arm y) := by
  rcases resolve_cases k s with ⟨y, -, hy⟩ | ⟨-, hk⟩
  · exact .inr ⟨y, hy, withOperand_ok hy⟩
  · exact .inl ⟨hk, withOperand_error hk⟩

/-- Every instruction answers a next state: it raised one of its errors, or it completed. -/
theorem exec_cases (i : Instr) (s : State) :
    (∃ e, RaisesError i s e ∧ exec i s = .next (s.raise e (some i.opcode))) ∨
      (∃ y u a t, OperandIs s i.operand y ∧ SideEffect i s u ∧ TargetIs i s t ∧
        exec i s = .next (u.commit a t)) := by
  cases i with
  | div k =>
    rcases withOperand_cases (Instr.div k).opcode k s _ with ⟨hk, h⟩ | ⟨y, hy, h⟩
    · exact .inl ⟨_, .inl ⟨hk, rfl⟩, h⟩
    · by_cases h₀ : y.toInt = 0
      · obtain rfl := toInt_eq_zero.1 h₀
        exact .inl ⟨_, .inr (.inl ⟨k, rfl, hy, rfl⟩), h⟩
      · rw [if_neg h₀] at h
        exact .inr ⟨y, s, _, _, hy, .inr (.inr ⟨by simp, by simp, rfl⟩), .inl ⟨rfl, by simp⟩, h⟩
  | sav k =>
    rcases withOperand_cases (Instr.sav k).opcode k s _ with ⟨hk, h⟩ | ⟨y, hy, h⟩
    · exact .inl ⟨_, .inl ⟨hk, rfl⟩, h⟩
    · cases hb : inBounds y s.cfg.memSize with
      | true =>
        rw [memWrite_ok hb] at h
        exact .inr ⟨y, _, _, _, hy, .inl ⟨k, y, rfl, hy, hb, rfl⟩, .inl ⟨rfl, by simp⟩, h⟩
      | false =>
        rw [memWrite_error hb] at h
        exact .inl ⟨_, .inr (.inr ⟨k, y, .inl rfl, hy, hb, rfl⟩), h⟩
  | lod k =>
    rcases withOperand_cases (Instr.lod k).opcode k s _ with ⟨hk, h⟩ | ⟨y, hy, h⟩
    · exact .inl ⟨_, .inl ⟨hk, rfl⟩, h⟩
    · cases hb : inBounds y s.cfg.memSize with
      | true =>
        rw [memRead_ok hb] at h
        exact .inr ⟨y, s, _, _, hy, .inr (.inr ⟨by simp, by simp, rfl⟩), .inl ⟨rfl, by simp⟩, h⟩
      | false =>
        rw [memRead_error hb] at h
        exact .inl ⟨_, .inr (.inr ⟨k, y, .inr rfl, hy, hb, rfl⟩), h⟩
  | adr k =>
    rcases withOperand_cases (Instr.adr k).opcode k s _ with ⟨hk, h⟩ | ⟨y, hy, h⟩
    · exact .inl ⟨_, .inl ⟨hk, rfl⟩, h⟩
    · exact .inr ⟨y, _, _, _, hy, .inr (.inl ⟨k, rfl, rfl⟩), .inl ⟨rfl, by simp⟩, h⟩
  | hlt k =>
    rcases withOperand_cases (Instr.hlt k).opcode k s _ with ⟨hk, h⟩ | ⟨y, hy, h⟩
    · exact .inl ⟨_, .inl ⟨hk, rfl⟩, h⟩
    · exact .inr ⟨y, s, _, _, hy, .inr (.inr ⟨by simp, by simp, rfl⟩), .inr (.inr ⟨k, rfl, rfl⟩), h⟩
  | jmp k =>
    rcases withOperand_cases (Instr.jmp k).opcode k s _ with ⟨hk, h⟩ | ⟨y, hy, h⟩
    · exact .inl ⟨_, .inl ⟨hk, rfl⟩, h⟩
    · exact .inr ⟨y, s, _, _, hy, .inr (.inr ⟨by simp, by simp, rfl⟩),
        .inr (.inl ⟨k, hy, .inl rfl⟩), h⟩
  | jpz k =>
    rcases withOperand_cases (Instr.jpz k).opcode k s _ with ⟨hk, h⟩ | ⟨y, hy, h⟩
    · exact .inl ⟨_, .inl ⟨hk, rfl⟩, h⟩
    · refine .inr ⟨y, s, _, _, hy, .inr (.inr ⟨by simp, by simp, rfl⟩), ?_, h⟩
      cases ht : truthy s.acc with
      | true => exact .inl ⟨rfl, by simp⟩
      | false => exact .inr (.inl ⟨k, hy, .inr (.inl ⟨rfl, (truthy_false_iff _).1 ht⟩)⟩)
  | jpn k =>
    rcases withOperand_cases (Instr.jpn k).opcode k s _ with ⟨hk, h⟩ | ⟨y, hy, h⟩
    · exact .inl ⟨_, .inl ⟨hk, rfl⟩, h⟩
    · refine .inr ⟨y, s, _, _, hy, .inr (.inr ⟨by simp, by simp, rfl⟩), ?_, h⟩
      cases ht : truthy s.acc with
      | true => exact .inr (.inl ⟨k, hy, .inr (.inr ⟨rfl, (truthy_iff _).1 ht⟩)⟩)
      | false => exact .inl ⟨rfl, by simp⟩
  | nop k | mov k | add k | sub k | mul k | and k | or k | not k | band k | bor k | bxor k | rotl k
  | rotr k | bnot k =>
    rcases withOperand_cases _ k s _ with ⟨hk, h⟩ | ⟨y, hy, h⟩
    · exact .inl ⟨_, .inl ⟨hk, rfl⟩, h⟩
    · exact .inr ⟨y, s, _, _, hy, .inr (.inr ⟨by simp, by simp, rfl⟩), .inl ⟨rfl, by simp⟩, h⟩

end Sys2Proof.Machine
end

