-- ==== Sys2Proof/Laws/Fetch.lean ====
section
/-! SUPPORT. What the fetch and the prefetch can do: the cache line and the latency total, and nothing
else (spec/48_fetch_prefetch.md). -/

namespace Sys2Proof.Machine

theorem fetchHits_iff (s : State) : fetchHits s = true ↔ s.cl.valid = true ∧ s.cl.tag = s.pc := by
  simp [fetchHits]

/-- All that a fetch can do (R210 to R212). -/
theorem fetch_cases (s : State) :
    (fetchHits s = true ∧ fetch s = (.ok s.cl.insn, s.delay s.cfg.fetchTime)) ∨
    (fetchHits s = false ∧ ∃ w, progRead s.pc s.prog = .ok w ∧
      fetch s = (.ok w, ((s.delay s.cfg.fetchTime).delay s.cfg.missPenalty).fillLine s.pc w)) ∨
    (fetchHits s = false ∧ progRead s.pc s.prog = .error (.programBoundsError s.pc) ∧
      fetch s = (.error (.programBoundsError s.pc), (s.delay s.cfg.fetchTime).delay s.cfg.missPenalty)) := by
  unfold fetch
  cases hh : fetchHits s with
  | true => simp
  | false =>
    rcases progRead_cases s.pc s.prog with ⟨w, hw, -⟩ | ⟨he, -⟩
    · simp [hw]
    · simp [he]

/-- A fetch changes the line and the latency total only. -/
theorem fetch_frame (s : State) : ∃ l n, (fetch s).2 = { s with cl := l, lat := n } := by
  rcases fetch_cases s with ⟨-, h⟩ | ⟨-, w, -, h⟩ | ⟨-, -, h⟩ <;> rw [h] <;> exact ⟨_, _, rfl⟩

/-- All that a prefetch can do (R214). -/
theorem prefetch_cases (s : State) :
    (∃ w, progRead (lookAhead s.pc s.prog.length) s.prog = .ok w ∧
      prefetch s = (s.delay s.cfg.prefetchTime).fillLine (lookAhead s.pc s.prog.length) w) ∨
    ((∃ e, progRead (lookAhead s.pc s.prog.length) s.prog = .error e) ∧
      prefetch s = s.delay s.cfg.prefetchTime) := by
  unfold prefetch
  cases h : progRead (lookAhead s.pc s.prog.length) s.prog with
  | ok w => exact .inl ⟨w, rfl, rfl⟩
  | error e => exact .inr ⟨⟨e, rfl⟩, rfl⟩

/-- The prefetch changes the line and the latency total only. -/
theorem prefetchIfEnabled_frame (s : State) :
    ∃ l n, prefetchIfEnabled s = { s with cl := l, lat := n } := by
  unfold prefetchIfEnabled
  split
  · rcases prefetch_cases s with ⟨w, -, h⟩ | ⟨-, h⟩ <;> rw [h] <;> exact ⟨_, _, rfl⟩
  · exact ⟨s.cl, s.lat, rfl⟩

theorem lineOk_of_fill {s : State} {p : Word} {w : InsnWord} (h : progRead p s.prog = .ok w) :
    (s.fillLine p w).LineOk := by
  rcases progRead_cases p s.prog with ⟨w', hw, h₀, hp⟩ | ⟨he, -⟩
  · rw [hw] at h
    cases h
    exact fun _ => ⟨h₀, hp⟩
  · rw [he] at h
    cases h

/-- A fetch keeps R31. -/
theorem lineOk_fetch {s : State} (h : s.LineOk) : (fetch s).2.LineOk := by
  rcases fetch_cases s with ⟨-, hf⟩ | ⟨-, w, hw, hf⟩ | ⟨-, -, hf⟩
  · rw [hf]
    exact h
  · rw [hf]
    exact lineOk_of_fill (s := (s.delay _).delay _) hw
  · rw [hf]
    exact h

/-- A prefetch keeps R31. -/
theorem lineOk_prefetchIfEnabled {s : State} (h : s.LineOk) : (prefetchIfEnabled s).LineOk := by
  unfold prefetchIfEnabled
  split
  · rcases prefetch_cases s with ⟨w, hw, hp⟩ | ⟨-, hp⟩
    · rw [hp]
      exact lineOk_of_fill (s := s.delay _) hw
    · rw [hp]
      exact h
  · exact h

/-- With R31, a fetch returns what the program memory holds, hit or miss (R216). -/
theorem fetch_returns {s : State} (h : s.LineOk) : (fetch s).1 = progRead s.pc s.prog := by
  rcases fetch_cases s with ⟨hh, hf⟩ | ⟨-, w, hw, hf⟩ | ⟨-, he, hf⟩
  · obtain ⟨hv, ht⟩ := (fetchHits_iff s).1 hh
    obtain ⟨h₀, hp⟩ := h hv
    rw [hf, ← ht, progRead_ok h₀ hp]
  · rw [hf, hw]
  · rw [hf, he]

/-- The look-ahead address as an integer, for an address of a program of legal length (R215). -/
theorem toInt_lookAhead {pc : Word} {n : Nat} (h₀ : 0 ≤ pc.toInt) (h₁ : pc.toInt < n)
    (hn : progLenOk n = true) : (lookAhead pc n).toInt = min (pc.toInt + 1) ((n : Int) - 1) := by
  have hn' : n ≤ 2 ^ 31 - 1 := of_decide_eq_true hn
  exact toInt_wrap_of_fits (by omega) (by omega)

end Sys2Proof.Machine
end

