-- ==== Sys2Proof/Laws/PerInstr.lean ====
section
/-! SUPPORT. What is true of every instruction as syntax, one lemma per constructor. -/

/-- The two fields of an instruction's word are its opcode and its operand (spec/30_encoding.md R81): the
encoder drops no bit of either. -/
def Sys2Proof.Laws.EncodeFields.Statement (i : Sys2Proof.Instr) : Prop :=
  Sys2Proof.InsnWord.opcode (Sys2Proof.encode i) = i.opcode ∧
    Sys2Proof.InsnWord.operand (Sys2Proof.encode i) = i.operand

namespace Sys2Proof.Laws.EncodeFields

theorem opcode_insnWord (op : Opcode) (k : Word) : InsnWord.opcode (insnWord op k) = op := by
  apply BitVec.eq_of_getLsbD_eq
  intro i hi
  have h : (insnWord op k).getLsbD (32 + i) = _ := BitVec.getLsbD_append
  simpa [InsnWord.opcode, hi] using h

theorem operand_insnWord (op : Opcode) (k : Word) : InsnWord.operand (insnWord op k) = k := by
  apply BitVec.eq_of_getLsbD_eq
  intro i hi
  have h : (insnWord op k).getLsbD i = _ := BitVec.getLsbD_append
  simpa [InsnWord.operand, hi] using h

theorem fields (i : Instr) : Statement i :=
  ⟨opcode_insnWord _ _, operand_insnWord _ _⟩

theorem nop (k : Word) : Statement (.nop k) := fields _
theorem mov (k : Word) : Statement (.mov k) := fields _
theorem add (k : Word) : Statement (.add k) := fields _
theorem sub (k : Word) : Statement (.sub k) := fields _
theorem mul (k : Word) : Statement (.mul k) := fields _
theorem div (k : Word) : Statement (.div k) := fields _
theorem and (k : Word) : Statement (.and k) := fields _
theorem or (k : Word) : Statement (.or k) := fields _
theorem not (k : Word) : Statement (.not k) := fields _
theorem band (k : Word) : Statement (.band k) := fields _
theorem bor (k : Word) : Statement (.bor k) := fields _
theorem bxor (k : Word) : Statement (.bxor k) := fields _
theorem rotl (k : Word) : Statement (.rotl k) := fields _
theorem rotr (k : Word) : Statement (.rotr k) := fields _
theorem bnot (k : Word) : Statement (.bnot k) := fields _
theorem jmp (k : Word) : Statement (.jmp k) := fields _
theorem jpz (k : Word) : Statement (.jpz k) := fields _
theorem jpn (k : Word) : Statement (.jpn k) := fields _
theorem sav (k : Word) : Statement (.sav k) := fields _
theorem lod (k : Word) : Statement (.lod k) := fields _
theorem hlt (k : Word) : Statement (.hlt k) := fields _
theorem adr (k : Word) : Statement (.adr k) := fields _

end Sys2Proof.Laws.EncodeFields
end

