-- ==== Sys2Proof/Laws/Step.lean ====
section
/-! SUPPORT. The inversion lemma of `step`: all that a step can do, once (spec/40_execution_cycle.md
R100). -/

namespace Sys2Proof.Machine

/-- Dispatch runs the decoded instruction, or raises UnknownOpcode (R103). -/
theorem dispatch_cases (w : InsnWord) (s : State) :
    (∃ i, decode w = .ok i ∧ dispatch w s = exec i s) ∨
    (∃ op, decode w = .error (.unknownOpcode op) ∧
      dispatch w s = .next (s.raise .unknownOpcode (some op))) := by
  unfold dispatch
  cases h : decode w with
  | ok i => exact .inl ⟨i, rfl, rfl⟩
  | error e => cases e with
    | unknownOpcode op => exact .inr ⟨op, rfl, rfl⟩

/-- All that lines 2 to 8 of R100 can do: the fetch raised, or the fetched word was dispatched in the state
that the fetch and the prefetch left. -/
theorem cycle_cases (s : State) :
    (∃ s', fetch s = (.error (.programBoundsError s.pc), s') ∧
      cycle s = .next (s'.raise (.programBoundsError s.pc) none)) ∨
    (∃ w s', fetch s = (.ok w, s') ∧ cycle s = dispatch w (prefetchIfEnabled s')) := by
  unfold cycle
  rcases fetch_cases s with ⟨-, h⟩ | ⟨-, w, -, h⟩ | ⟨-, -, h⟩ <;> rw [h]
  · exact .inr ⟨_, _, rfl, rfl⟩
  · exact .inr ⟨_, _, rfl, rfl⟩
  · exact .inl ⟨_, rfl, rfl⟩

theorem wrap_neg_one : wrap (-1) = -1 := by decide

/-- All that a step can do. -/
theorem step_cases (s : State) :
    (s.run = .halted ∧ step s = .fault .noStepHalted) ∨
    (s.run = .faulted ∧ step s = .fault .noStepFaulted) ∨
    (s.run = .running ∧ configLegal s = false ∧ step s = .refused .illegalConfiguration) ∨
    (s.run = .running ∧ configLegal s = true ∧ s.pc = -1 ∧ step s = .next s.halt) ∨
    (PassesHaltCheck s ∧ step s = cycle s) := by
  cases hr : s.run with
  | halted => exact .inl ⟨rfl, by simp only [step, hr]⟩
  | faulted => exact .inr (.inl ⟨rfl, by simp only [step, hr]⟩)
  | running =>
    cases hc : configLegal s with
    | false => exact .inr (.inr (.inl ⟨rfl, rfl, by simp [step, hr, hc]⟩))
    | true =>
      by_cases hp : s.pc = -1
      · refine .inr (.inr (.inr (.inl ⟨rfl, rfl, hp, ?_⟩)))
        simp only [step, hr, hc, wrap_neg_one, if_pos hp, if_true]
      · refine .inr (.inr (.inr (.inr ⟨⟨hr, hc, hp⟩, ?_⟩)))
        simp only [step, hr, hc, wrap_neg_one, if_neg hp, if_true]

theorem step_of_passes {s : State} (h : PassesHaltCheck s) : step s = cycle s := by
  obtain ⟨hr, hc, hp⟩ := h
  simp only [step, hr, hc, wrap_neg_one, if_neg hp, if_true]

/-- What the fetch and the prefetch of a step leave: the line and the latency total only are other, and R31
still holds. -/
theorem fetched_frame {s s' : State} {w : InsnWord} (h : fetch s = (.ok w, s')) :
    ∃ l n, prefetchIfEnabled s' = { s with cl := l, lat := n } := by
  obtain ⟨l, n, hf⟩ := fetch_frame s
  obtain ⟨l', n', hp⟩ := prefetchIfEnabled_frame s'
  rw [h] at hf
  simp only at hf
  exact ⟨l', n', by rw [hp, hf]⟩

/-! ## Runs: one step more -/

theorem core_run_succ (M : Host.Core) (n : Nat) (s : M.State) :
    (∀ u, M.step s = .next u → M.run (n + 1) s = M.run n u) ∧
    (∀ r, M.step s = .fault r → M.run (n + 1) s = .fault r) ∧
    (∀ r, M.step s = .refused r → M.run (n + 1) s = .refused r) := by
  refine ⟨fun u h => ?_, fun r h => ?_, fun r h => ?_⟩ <;> simp only [Host.Core.run, h]

theorem run_of_next {s u : State} (h : step s = .next u) (n : Nat) :
    Host.Core.run Sys2Proof.core (n + 1) s = Host.Core.run Sys2Proof.core n u :=
  (core_run_succ Sys2Proof.core n s).1 u h

theorem run_of_fault {s : State} {r : Fault} (h : step s = .fault r) (n : Nat) :
    Host.Core.run Sys2Proof.core (n + 1) s = .fault r :=
  (core_run_succ Sys2Proof.core n s).2.1 r h

theorem run_of_refused {s : State} {r : Refusal} (h : step s = .refused r) (n : Nat) :
    Host.Core.run Sys2Proof.core (n + 1) s = .refused r :=
  (core_run_succ Sys2Proof.core n s).2.2 r h

end Sys2Proof.Machine
end

