-- ==== Sys2Proof/Tests/Slice0.lean ====
section
/-! SUPPORT. Tests and witnesses. The expected results of the tests are the vectors of
spec/95_test_vectors.md (named in each comment), not the model's own answers. A witness theorem shows, for
the statement it is named after, a state and operands that meet its hypotheses, at the ends of the ranges
its clauses name. -/

namespace Sys2Proof.Machine.Tests

/-! ## The well-formedness checks refuse -/

theorem smoke_record_opcode_high : Record.wf ⟨256, 0⟩ = false := by decide
theorem smoke_record_opcode_low : Record.wf ⟨-1, 0⟩ = false := by decide
theorem smoke_record_operand_high : Record.wf ⟨1, 2147483648⟩ = false := by decide
theorem smoke_record_operand_low : Record.wf ⟨1, -2147483649⟩ = false := by decide
theorem smoke_record_ends : Record.wf ⟨255, 2147483647⟩ = true ∧ Record.wf ⟨0, -2147483648⟩ = true := by decide
theorem smoke_memsize_zero : Params.wf ⟨0, false, 1, 1, 1⟩ = false := by decide
theorem smoke_memsize_high : Params.wf ⟨2147483649, false, 1, 1, 1⟩ = false := by decide
theorem smoke_program_high : progLenOk 2147483648 = false := by decide
theorem smoke_program_ends : progLenOk 2147483647 = true ∧ progLenOk 0 = true := by decide

/-! ## Decoding: the word written out from R81 and R84, opcode then operand -/

/-- `00000000` and 32 zeros. -/
theorem decode_nop : decode 0b0000000000000000000000000000000000000000 = .ok (.nop 0) := by decide
/-- V-MV6: `00000001` and 32 ones. -/
theorem decode_mov : decode 0b0000000111111111111111111111111111111111 = .ok (.mov (-1)) := by decide
/-- P1. -/
theorem decode_add : decode 0b0000001000000000000000000000000000000011 = .ok (.add 3) := by decide
/-- P3. -/
theorem decode_sub : decode 0b0000001100000000000000000000000000000001 = .ok (.sub 1) := by decide
/-- P18. -/
theorem decode_mul : decode 0b0000010000000000000000000000000000000000 = .ok (.mul 0) := by decide
/-- P5. -/
theorem decode_div : decode 0b0000010100000000000000000000000000000000 = .ok (.div 0) := by decide
/-- P16. -/
theorem decode_and : decode 0b0000011011111111111111111111111111111101 = .ok (.and (-3)) := by decide
/-- P16. -/
theorem decode_or : decode 0b0000011100000000000000000000000000000111 = .ok (.or 7) := by decide
/-- P16. -/
theorem decode_not : decode 0b0000100000000000000000000000000000000000 = .ok (.not 0) := by decide
/-- P4. -/
theorem decode_band : decode 0b0000100100000000000000000000000000000110 = .ok (.band 6) := by decide
/-- R162's example. -/
theorem decode_bor : decode 0b0000101000000000000000000000000000001010 = .ok (.bor 10) := by decide
/-- P4. -/
theorem decode_bxor : decode 0b0000101100000000000000000000000000000011 = .ok (.bxor 3) := by decide
/-- P4. -/
theorem decode_rotl : decode 0b0000110000000000000000000000000000000100 = .ok (.rotl 4) := by decide
/-- P4. -/
theorem decode_rotr : decode 0b0000110100000000000000000000000000001000 = .ok (.rotr 8) := by decide
/-- P4. -/
theorem decode_bnot : decode 0b0000111000000000000000000000000000000000 = .ok (.bnot 0) := by decide
/-- P7. -/
theorem decode_jmp : decode 0b0000111111111111111111111111111111111110 = .ok (.jmp (-2)) := by decide
/-- V-C9. -/
theorem decode_jpz : decode 0b0001000000000000000000000000000000001001 = .ok (.jpz 9) := by decide
/-- P3. -/
theorem decode_jpn : decode 0b0001000100000000000000000000000000000001 = .ok (.jpn 1) := by decide
/-- P12. -/
theorem decode_sav : decode 0b0001001000000000000000000000000001100100 = .ok (.sav 100) := by decide
/-- P13. -/
theorem decode_lod : decode 0b0001001111111111111111111111111111111111 = .ok (.lod (-1)) := by decide
/-- P1. -/
theorem decode_hlt : decode 0b0001010000000000000000000000000000000000 = .ok (.hlt 0) := by decide
/-- P3. -/
theorem decode_adr : decode 0b0001010100000000000000000000000000000000 = .ok (.adr 0) := by decide
/-- P14: opcode 22. -/
theorem decode_illegal : decode 0b0001011000000000000000000000000000000111 = .error (.unknownOpcode 22) := by decide
/-- The table's number of a row is the word itself. -/
theorem decode_table_word : decodeTableWord 40 0x1200000064 = some (.sav 100) := by decide
/-- MV7, R90: the record `1 -2147483648`. -/
theorem record_word : Record.toWord ⟨1, -2147483648⟩ = some 0x0180000000 := by decide
/-- R90: a record that does not fit is refused, not truncated. -/
theorem record_refused : Record.toWord ⟨256, 0⟩ = none := by decide
/-- R91. -/
theorem assembly_line : (Instr.jmp (-2)).assembly = "JMP -2" := by decide

/-! ## States for tests -/

/-- The parameters of the vectors: `MEMSIZE = 100`, and the latencies of V-F14. -/
def cfg (pf : Bool) : Params := ⟨100, pf, 1, 10, 2⟩

/-- Direct mode, memory all zero. -/
def dir (prog : List InsnWord) (acc pc : Word) : State :=
  { State.resetWith (cfg false) prog with acc := acc, pc := pc }

/-- Indirect mode. -/
def indi (prog : List InsnWord) (acc pc : Word) (mem : Memory) : State :=
  { State.resetWith (cfg false) prog with acc := acc, pc := pc, ind := true, mem := mem }

/-- What a step that answers a next state shows of it. -/
def after {α : Type} (f : State → α) : StepResult → Option α
  | .next t => some (f t)
  | .fault _ | .refused _ => none

/-- The accumulator and `pc` after running `i` alone in direct mode at address 0. -/
def run1 (i : Instr) (acc : Word) : Option (Word × Word) :=
  after (fun t => (t.acc, t.pc)) (step (dir [encode i] acc 0))

/-- The accumulator, `pc`, run state, code and address after running `i` in indirect mode at address 0. -/
def runInd (i : Instr) (acc : Word) (mem : Memory) : Option (Word × Word × RunState × FaultCode) :=
  after (fun t => (t.acc, t.pc, t.run, t.fault.code)) (step (indi [encode i] acc 0 mem))

/-! ## One step per instruction, from the vectors -/

/-- V-MV2. -/
theorem test_nop : run1 (.nop 12345) 7 = some (7, 1) := by decide
/-- V-MV4. -/
theorem test_nop_indirect_faults : runInd (.nop 100) 7 [] = some (7, 0, .faulted, .memoryAccessError) := by decide
/-- V-MV6. -/
theorem test_mov : run1 (.mov (-1)) 9 = some (-1, 1) := by decide
/-- V-MV9. -/
theorem test_mov_indirect : runInd (.mov 4) 9 [(4, -3)] = some (-3, 1, .running, .none) := by decide
/-- V-A4. -/
theorem test_add_wraps : run1 (.add 1) 2147483647 = some (-2147483648, 1) := by decide
/-- V-A8: adds `mem[0]`. -/
theorem test_add_indirect : runInd (.add 0) 3 [(0, 3)] = some (6, 1, .running, .none) := by decide
/-- V-A11: accumulator minus operand. -/
theorem test_sub : run1 (.sub 5) 3 = some (-2, 1) := by decide
/-- V-A14. -/
theorem test_sub_wraps : run1 (.sub (-2147483648)) 0 = some (-2147483648, 1) := by decide
/-- V-A21. -/
theorem test_mul_wraps : run1 (.mul 46341) 46341 = some (-2147479015, 1) := by decide
/-- V-A16. -/
theorem test_mul_signs : run1 (.mul 7) (-3) = some (-21, 1) := by decide
/-- V-A27. -/
theorem test_div_toward_zero : run1 (.div 2) (-7) = some (-3, 1) := by decide
/-- V-A35. -/
theorem test_div_wraps : run1 (.div (-1)) (-2147483648) = some (-2147483648, 1) := by decide
/-- V-A42. -/
theorem test_div_by_zero :
    after (fun t => (t.acc, t.pc, t.run, t.fault.code, t.fault.opcode)) (step (dir [0x0500000000] 7 0)) =
      some (7, 0, .faulted, .divisionByZero, 5) := by decide
/-- V-L1. -/
theorem test_and : run1 (.and 5) 2 = some (5, 1) := by decide
/-- V-L4. -/
theorem test_and_falsy : run1 (.and 5) 0 = some (0, 1) := by decide
/-- V-L11. -/
theorem test_or : run1 (.or 0) (-1) = some (-1, 1) := by decide
/-- V-L9. -/
theorem test_or_falsy : run1 (.or (-3)) 0 = some (-3, 1) := by decide
/-- V-L12. -/
theorem test_not : run1 (.not 0) 0 = some (1, 1) := by decide
/-- V-L15. -/
theorem test_not_truthy : run1 (.not 99) (-2147483648) = some (0, 1) := by decide
/-- V-B5. -/
theorem test_band : run1 (.band (-2)) 5 = some (4, 1) := by decide
/-- V-B6. -/
theorem test_bor : run1 (.bor 255) 3855 = some (4095, 1) := by decide
/-- V-B3. -/
theorem test_bxor : run1 (.bxor 255) (-1) = some (-256, 1) := by decide
/-- V-R12. -/
theorem test_rotl_negative : run1 (.rotl (-8)) 0x12345678 = some (0x78123456, 1) := by decide
/-- V-R13. -/
theorem test_rotl_max : run1 (.rotl 2147483647) 1 = some (-2147483648, 1) := by decide
/-- V-R19. -/
theorem test_rotr_top_bit : run1 (.rotr 1) (-2147483648) = some (1073741824, 1) := by decide
/-- V-R26. -/
theorem test_rotr_full : run1 (.rotr 32) 7 = some (7, 1) := by decide
/-- V-B14. -/
theorem test_bnot : run1 (.bnot 0) 1342177280 = some (-1342177281, 1) := by decide
/-- V-C1. -/
theorem test_jmp : run1 (.jmp 2) 0 = some (0, 3) := by decide
/-- V-C7. -/
theorem test_jmp_wraps : run1 (.jmp 2147483647) 0 = some (0, -2147483648) := by decide
/-- V-C9, V-C10. -/
theorem test_jpz : run1 (.jpz 9) 0 = some (0, 10) ∧ run1 (.jpz 9) 3 = some (3, 1) := by decide
/-- V-C16. -/
theorem test_jpz_resolves : runInd (.jpz 100) 3 [] = some (3, 0, .faulted, .memoryAccessError) := by decide
/-- V-C13, V-C14. -/
theorem test_jpn : run1 (.jpn 1) (-5) = some (-5, 2) ∧ run1 (.jpn 1) 0 = some (0, 1) := by decide
/-- V-M2. -/
theorem test_sav : after (fun t => (t.mem, t.acc)) (step (dir [0x1200000063] (-4) 0)) = some ([(99, -4)], -4) := by decide
/-- V-M11. -/
theorem test_sav_indirect_faults :
    after (fun t => (t.mem, t.run, t.fault.addr, t.fault.opcode)) (step (indi [0x1200000003] 7 0 [(3, 100)])) =
      some ([(3, 100)], .faulted, 100, 18) := by decide
/-- V-M13. -/
theorem test_lod_indirect : runInd (.lod 3) 0 [(3, 20), (20, 55)] = some (55, 1, .running, .none) := by decide
/-- V-M8. -/
theorem test_lod_faults :
    after (fun t => (t.acc, t.run, t.fault.addr, t.fault.opcode)) (step (dir [0x13FFFFFFFF] 1 0)) =
      some (1, .faulted, -1, 19) := by decide
/-- V-S1, V-S3. -/
theorem test_hlt : run1 (.hlt 777) 8 = some (8, -1) := by decide
/-- V-S4. -/
theorem test_hlt_indirect_faults : runInd (.hlt 100) 0 [] = some (0, 0, .faulted, .memoryAccessError) := by decide
/-- V-S7. -/
theorem test_adr : after (fun t => (t.ind, t.pc)) (step (indi [0x1500000000] 0 0 [(0, 3)])) = some (false, 1) := by decide
/-- V-S9. -/
theorem test_adr_faults : after (fun t => (t.ind, t.run)) (step (indi [0x1500000064] 0 0 [])) = some (true, .faulted) := by decide

/-! ## The step, the fetch and the prefetch, from the vectors -/

/-- The program P1 of the vectors. -/
def p1 : List InsnWord := [0x0100000005, 0x0200000003, 0x1200000000, 0x1400000000]

/-- V-S2. -/
theorem test_halt_check : after (fun t => (t.run, t.lat, t.cl.valid)) (step (dir p1 8 (-1))) = some (.halted, 0, false) := by decide
/-- V-X2: opcode 255 in indirect mode. -/
theorem test_unknown_opcode :
    after (fun t => (t.run, t.fault.code, t.fault.opcode)) (step (indi [0xFFFFFFFFFF] 0 0 [])) =
      some (.faulted, .unknownOpcode, 255) := by decide
/-- V-F4: a failing fetch adds both latencies and leaves the line. -/
theorem test_fetch_outside :
    after (fun t => (t.fault.code, t.fault.pc, t.fault.addr, t.lat, t.cl))
        (step { dir p1 8 4 with cl := ⟨true, 3, 0x1400000000⟩ }) =
      some (.programBoundsError, 4, 4, 11, ⟨true, 3, 0x1400000000⟩) := by decide
/-- V-F2: a hit adds FETCH_TIME only. -/
theorem test_fetch_hit :
    after (fun t => (t.acc, t.lat)) (step { dir p1 5 1 with cl := ⟨true, 1, 0x0200000003⟩ }) = some (8, 1) := by decide
/-- P1, step 1 with prefetch: a miss, then the line holds address 1. -/
theorem test_prefetch :
    after (fun t => (t.acc, t.lat, t.cl)) (step (State.resetWith (cfg true) p1)) =
      some (5, 13, ⟨true, 1, 0x0200000003⟩) := by decide
/-- V-F8: at the last address the look-ahead is clamped. -/
theorem test_prefetch_clamped : (prefetch (dir p1 8 3)).cl = ⟨true, 3, 0x1400000000⟩ := by decide
/-- V-F11: an empty program. -/
theorem test_empty_program :
    after (fun t => (t.run, t.fault.code, t.fault.addr, t.lat)) (step (State.resetWith (cfg true) [])) =
      some (.faulted, .programBoundsError, 0, 11) := by decide
/-- R288. -/
theorem test_final_report :
    State.finalReport { dir p1 8 (-1) with run := .halted, mem := [(0, 8)], cfg := ⟨3, false, 1, 10, 2⟩ } =
      some (8, [8, 0, 0], 0) := by decide

/-! ## Witnesses -/

/-- A state of every kind a statement asks for meets the invariant. -/
theorem inv_dir : (dir p1 5 1).Inv := ⟨by decide, by decide, by decide, by decide, by decide⟩

/-- With a valid line, in indirect mode, with a cell. -/
def full (prog : List InsnWord) (pf : Bool) (pc tag : Word) (w : InsnWord) : State :=
  { State.resetWith (cfg pf) prog with acc := 7, pc := pc, ind := true, mem := [(3, 99)], cl := ⟨true, tag, w⟩ }

theorem inv_full : (full p1 true 1 1 0x0200000003).Inv := ⟨by decide, by decide, by decide, by decide, by decide⟩

theorem witness_StepKeepsTheInvariant :
    (full p1 true 1 1 0x0200000003).Inv ∧ (after (fun t => t.pc) (step (full p1 true 1 1 0x0200000003))).isSome = true :=
  ⟨inv_full, by decide⟩

/-- Direct mode; indirect mode at the first and the last cell. For the result statements of NOP, MOV, ADD,
SUB, MUL, AND, OR, NOT, BAND, BOR, BXOR, BNOT, ROTL, ROTR, JMP, JPZ, JPN, ADR. -/
theorem witness_operand :
    OperandIs (dir [] 5 0) (-1) (-1) ∧ OperandIs (indi [] 5 0 [(0, 9)]) 0 9 ∧
      OperandIs (indi [] 5 0 [(99, -9)]) 99 (-9) := by decide

/-- Just below the first and just above the last cell. For UnresolvedOperandRaisesInEveryInstruction and the
RaisesUnresolved clauses. -/
theorem witness_operand_fails : OperandFails (indi [] 5 0 []) (-1) ∧ OperandFails (indi [] 5 0 []) 100 := by decide

theorem witness_NopChangesPcOnly :
    OperandIs (dir [] 7 3) 12345 12345 ∧ OperandFails (indi [] 7 3 []) 100 := by decide

/-- Its clause on indirect mode, at both ends. -/
theorem witness_MovLoadsResolvedOperand :
    OperandIs (dir [] 9 0) 5 5 ∧ (indi [] 9 0 []).ind = true ∧
      0 ≤ (99 : Word).toInt ∧ (99 : Word).toInt < (indi [] 9 0 []).cfg.memSize ∧
      0 ≤ (0 : Word).toInt ∧ (0 : Word).toInt < (indi [] 9 0 []).cfg.memSize := by decide

/-- The exact results at both ends of the range. -/
theorem witness_AddSubMulWrap :
    OperandIs (dir [] 2147483646 0) 1 1 ∧
      (dir [] 2147483646 0).acc.toInt + (1 : Word).toInt < 2 ^ 31 ∧
      -(2 ^ 31) ≤ (dir [] (-2147483647) 0).acc.toInt - (1 : Word).toInt ∧
      (dir [] (-2147483647) 0).acc.toInt - (1 : Word).toInt < 2 ^ 31 ∧
      -(2 ^ 31) ≤ (dir [] (-1073741824) 0).acc.toInt * (2 : Word).toInt ∧
      (dir [] (-1073741824) 0).acc.toInt * (2 : Word).toInt < 2 ^ 31 := by decide

/-- Both branches: the quotient that does not fit, and one that does. -/
theorem witness_DivRoundsTowardZero :
    OperandIs (dir [] (-2147483648) 0) (-1) (-1) ∧ (-1 : Word) ≠ 0 ∧
      (dir [] (-2147483648) 0).acc.toInt = -(2 ^ 31) ∧ (-1 : Word).toInt = -1 ∧
      OperandIs (indi [] (-7) 0 [(3, 2)]) 3 2 ∧ (2 : Word) ≠ 0 := by decide

theorem witness_DivisionByZeroIsOfDivAlone :
    OperandIs (dir [] 7 0) 0 0 ∧ OperandIs (indi [] 7 0 []) 3 0 ∧ (dir [] 7 0).fault.code = .none ∧
      after (fun t => t.fault.code) (exec (.div 0) (dir [] 7 0)) = some .divisionByZero ∧
      after (fun t => t.fault.code) (step (dir [0x0500000000] 7 0)) = some .divisionByZero := by decide

theorem witness_LogicalSelectByTruthiness :
    OperandIs (dir [] 2 0) 5 5 ∧ (dir [] 2 0).acc ≠ 0 ∧ OperandIs (dir [] 0 0) 5 5 ∧ (dir [] 0 0).acc = 0 := by decide

theorem witness_RotrIsRotlOfNegatedCount :
    OperandIs (dir [] 1 0) 8 8 ∧ OperandIs (dir [] 1 0) (-8) (-8) ∧
      OperandIs (indi [] 1 0 [(0, -2147483648)]) 0 (-2147483648) := by decide

theorem witness_JumpsLandOneAfterTheirOperand :
    OperandIs (dir [] 0 4) 9 9 ∧ OperandIs (dir [] 3 4) 9 9 ∧ OperandFails (indi [] 3 4 []) 100 := by decide

/-- In range at both ends, and out of range on both sides. -/
theorem witness_LodReadsOneCell :
    (OperandIs (dir [] 1 0) 0 0 ∧ 0 ≤ (0 : Word).toInt) ∧
      (OperandIs (dir [] 1 0) 99 99 ∧ (99 : Word).toInt < (dir [] 1 0).cfg.memSize) ∧
      (OperandIs (dir [] 1 0) 100 100 ∧ ((dir [] 1 0).cfg.memSize : Int) ≤ (100 : Word).toInt) ∧
      (OperandIs (indi [] 1 0 [(3, -1)]) 3 (-1) ∧ (-1 : Word).toInt < 0) ∧
      OperandIs (indi [] 1 0 [(3, 99)]) 3 99 ∧
      (indi [] 1 0 [(3, 99)]).mem.read 99 = (State.resetWith (cfg true) p1).mem.read 99 := by decide

/-- The same, with the canonical memory its first clause asks for. -/
theorem witness_SavWritesOneCell :
    Memory.wf [(3, 99)] = true ∧
      (OperandIs (indi [] 1 0 [(3, 99)]) 3 99 ∧ (99 : Word).toInt < (indi [] 1 0 [(3, 99)]).cfg.memSize) ∧
      (OperandIs (dir [] 1 0) 0 0 ∧ 0 ≤ (0 : Word).toInt) ∧
      (OperandIs (indi [] 1 0 [(3, 100)]) 3 100 ∧ (100 : Int) ≤ (100 : Word).toInt) ∧
      OperandIs (dir [] 1 0) (-1) (-1) ∧ (-1 : Word).toInt < 0 := by decide

theorem witness_HltEndsTheRunInOneMoreStep :
    OperandIs (dir p1 8 3) 0 0 ∧ (dir p1 8 3).run = .running ∧ configLegal (dir p1 8 3) = true ∧
      after (fun t => t.pc) (exec (.hlt 0) (dir p1 8 3)) = some (-1) := by decide

theorem witness_AdrInvertsTheMode :
    OperandIs (dir [] 0 3) 100 100 ∧ OperandIs (indi [] 0 5 [(0, 3)]) 0 3 ∧ OperandFails (indi [] 0 5 []) 100 := by decide

/-- An instruction that completes, one that raises, ADR, and one that keeps the accumulator. -/
theorem witness_FrameOfInstructionsThatStoreNothing :
    after (fun t => t.run) (exec (.add 1) (dir [] 1 0)) = some .running ∧
      after (fun t => t.run) (exec (.lod 100) (dir [] 1 0)) = some .faulted ∧
      after (fun t => t.ind) (exec (.adr 0) (dir [] 1 0)) = some true ∧
      after (fun t => t.acc) (exec (.jmp 0) (dir [] 1 0)) = some 1 := by decide

/-- SAV with an operand and without. -/
theorem witness_FrameOfSav :
    (after (fun t => t.run) (exec (.sav 99) (dir [] 1 0)) = some .running ∧ resolve 99 (dir [] 1 0) = .ok 99) ∧
      after (fun t => t.run) (exec (.sav 100) (indi [] 1 0 [])) = some .faulted ∧
      resolve 100 (indi [] 1 0 []) = .error (.memoryAccessError 100) := by decide

theorem witness_PcAdvancesFromTheTableTarget :
    (dir [] 0 4).run = .running ∧ after (fun t => (t.run, t.pc)) (exec (.jpz 9) (dir [] 0 4)) = some (.running, 10) ∧
      after (fun t => (t.run, t.pc)) (exec (.div 0) (dir [] 0 4)) = some (.faulted, 4) := by decide

theorem witness_HaltCheckEndsTheRun :
    (dir p1 8 (-1)).run = .running ∧ configLegal (dir p1 8 (-1)) = true ∧ (dir p1 8 (-1)).pc = -1 := by decide

theorem witness_NoStepAfterTheEndOfARun :
    (dir p1 8 (-1)).halt.run = .halted ∧ { dir p1 8 3 with run := .faulted }.run = .faulted := by decide

/-- A legal configuration, and one on each side of the bounds of `MEMSIZE`. -/
theorem witness_OnlyIllegalConfigurationsAreRefused :
    (dir p1 8 3).run = .running ∧ configLegal (dir p1 8 3) = true ∧
      configLegal { dir p1 8 3 with cfg := ⟨0, false, 1, 1, 1⟩ } = false ∧
      configLegal { dir p1 8 3 with cfg := ⟨2147483648, false, 1, 1, 1⟩ } = true ∧
      configLegal { dir p1 8 3 with cfg := ⟨2147483649, false, 1, 1, 1⟩ } = false := by decide

/-- Without and with the prefetch, on a miss and on a hit, at the first and the last address. -/
theorem witness_StepRunsTheDecodedInstruction :
    ((dir p1 5 3).Inv ∧ PassesHaltCheck (dir p1 5 3) ∧ WordAt (dir p1 5 3) 3 0x1400000000 ∧
      decode 0x1400000000 = .ok (.hlt 0) ∧ (dir p1 5 3).cfg.prefetchEn = false ∧ ¬Hits (dir p1 5 3)) ∧
    ((full p1 true 0 0 0x0100000005).Inv ∧ PassesHaltCheck (full p1 true 0 0 0x0100000005) ∧
      WordAt (full p1 true 0 0 0x0100000005) 0 0x0100000005 ∧ decode 0x0100000005 = .ok (.mov 5) ∧
      (full p1 true 0 0 0x0100000005).cfg.prefetchEn = true ∧ Hits (full p1 true 0 0 0x0100000005)) :=
  ⟨⟨⟨by decide, by decide, by decide, by decide, by decide⟩, by decide⟩,
    ⟨⟨by decide, by decide, by decide, by decide, by decide⟩, by decide⟩⟩

/-- The first and the last opcode without a row. -/
theorem witness_UnknownOpcodeIsRaisedAtDispatch :
    (dir [0x1600000007, 0xFFFFFFFFFF] 2 1).Inv ∧ PassesHaltCheck (dir [0x1600000007, 0xFFFFFFFFFF] 2 1) ∧
      WordAt (dir [0x1600000007, 0xFFFFFFFFFF] 2 1) 0 0x1600000007 ∧
      WordAt (dir [0x1600000007, 0xFFFFFFFFFF] 2 1) 1 0xFFFFFFFFFF ∧
      22 ≤ (InsnWord.opcode 0x1600000007).toNat ∧ 22 ≤ (InsnWord.opcode 0xFFFFFFFFFF).toNat :=
  ⟨⟨by decide, by decide, by decide, by decide, by decide⟩, by decide⟩

/-- Just above the last address, and the largest negative address that is not the sentinel. -/
theorem witness_FetchOutsideTheProgramRaises :
    ((dir p1 0 4).Inv ∧ PassesHaltCheck (dir p1 0 4) ∧ OutsideProgram (dir p1 0 4) 4) ∧
    ((dir p1 0 (-2)).Inv ∧ PassesHaltCheck (dir p1 0 (-2)) ∧ OutsideProgram (dir p1 0 (-2)) (-2)) :=
  ⟨⟨⟨by decide, by decide, by decide, by decide, by decide⟩, by decide⟩,
    ⟨⟨by decide, by decide, by decide, by decide, by decide⟩, by decide⟩⟩

/-- One faulting step for each of the four errors, from states that meet the invariant
(also for FaultingStepWritesNothing and FaultRecordIsWrittenOnce). -/
theorem witness_EachErrorHasItsCause :
    ((dir [0x0500000000] 7 0).Inv ∧ (indi [0x1400000064] 7 0 []).Inv ∧ (dir [0x1600000007] 7 0).Inv) ∧
    after (fun t => (t.run, t.fault.code)) (step (dir [0x0500000000] 7 0)) = some (.faulted, .divisionByZero) ∧
    after (fun t => (t.run, t.fault.code)) (step (indi [0x1400000064] 7 0 [])) = some (.faulted, .memoryAccessError) ∧
    after (fun t => (t.run, t.fault.code)) (step (dir [0x1600000007] 7 0)) = some (.faulted, .unknownOpcode) ∧
    after (fun t => (t.run, t.fault.code)) (step (dir [0x1600000007] 7 1)) = some (.faulted, .programBoundsError) :=
  ⟨⟨⟨by decide, by decide, by decide, by decide, by decide⟩,
    ⟨by decide, by decide, by decide, by decide, by decide⟩,
    ⟨by decide, by decide, by decide, by decide, by decide⟩⟩, by decide⟩

theorem witness_FaultingStepWritesNothing :
    after (fun t => t.run) (step (dir [0x0500000000] 7 0)) = some .faulted := by decide

theorem witness_FaultRecordIsWrittenOnce :
    after (fun t => decide (t.fault ≠ (dir [0x1200000064] 7 0).fault)) (step (dir [0x1200000064] 7 0)) = some true := by decide

/-- A hit; a miss in the program and outside it; an EMPTY line. -/
theorem witness_FetchHitsOrMisses :
    Hits (full p1 false 1 1 0x0200000003) ∧
      (¬Hits (dir p1 5 3) ∧ WordAt (dir p1 5 3) 3 0x1400000000) ∧
      (¬Hits (dir p1 5 4) ∧ OutsideProgram (dir p1 5 4) 4) ∧ (dir p1 5 3).cl.valid = false := by decide

/-- At the last address, enabled and not. -/
theorem witness_PrefetchLoadsTheNextWord :
    (configLegal (full p1 true 3 3 0x1400000000) = true ∧ WordAt (full p1 true 3 3 0x1400000000) 3 0x1400000000 ∧
      (full p1 true 3 3 0x1400000000).cfg.prefetchEn = true) ∧
    (configLegal (dir p1 5 0) = true ∧ WordAt (dir p1 5 0) 0 0x0100000005 ∧ (dir p1 5 0).cfg.prefetchEn = false) := by decide

theorem witness_WhenTheNextFetchHits :
    ((full p1 true 1 1 0x0200000003).Inv ∧ PassesHaltCheck (full p1 true 1 1 0x0200000003) ∧
      after (fun t => t.run) (step (full p1 true 1 1 0x0200000003)) = some .running ∧
      (full p1 true 1 1 0x0200000003).cfg.prefetchEn = true) ∧
    ((dir p1 5 1).Inv ∧ PassesHaltCheck (dir p1 5 1) ∧ after (fun t => t.run) (step (dir p1 5 1)) = some .running ∧
      (dir p1 5 1).cfg.prefetchEn = false) :=
  ⟨⟨inv_full, by decide⟩, ⟨inv_dir, by decide⟩⟩

/-- A step that passes the halt check and one that does not. -/
theorem witness_LatencyOfAStep :
    (PassesHaltCheck (dir p1 5 1) ∧ (after (fun t => t.lat) (step (dir p1 5 1))).isSome = true) ∧
      (¬PassesHaltCheck (dir p1 5 (-1)) ∧ (after (fun t => t.lat) (step (dir p1 5 (-1)))).isSome = true) := by decide

/-- One step: without the prefetch, with it, and with it into ProgramBoundsError. -/
theorem witness_LatencyOfARun :
    (∃ t, RunsTo 1 (dir p1 5 1) t ∧ (dir p1 5 1).cfg.prefetchEn = false) ∧
    (∃ t, RunsTo 1 (State.resetWith (cfg true) p1) t ∧ t.fault.code ≠ .programBoundsError) ∧
    (∃ t, RunsTo 1 (State.resetWith (cfg true) []) t ∧ t.fault.code = .programBoundsError) ∧
    (State.resetWith (cfg true) p1).Inv :=
  ⟨⟨_, rfl, rfl⟩, ⟨_, rfl, by decide⟩, ⟨_, rfl, rfl⟩, ⟨by decide, by decide, by decide, by decide, by decide⟩⟩

theorem witness_PrefetchNeverChangesResults :
    (State.resetWith (cfg true) p1).Inv ∧ (State.resetWith ⟨100, false, 5, 6, 7⟩ p1).Inv ∧
      SameArchitecture (State.resetWith (cfg true) p1) (State.resetWith ⟨100, false, 5, 6, 7⟩ p1) :=
  ⟨⟨by decide, by decide, by decide, by decide, by decide⟩, ⟨by decide, by decide, by decide, by decide, by decide⟩, by decide⟩

theorem witness_StepRefinesThePlainFetchMachine : (full p1 true 1 1 0x0200000003).Inv := inv_full

theorem witness_ProgramAndParametersAreFixed :
    (after (fun t => t.pc) (step (full p1 true 1 1 0x0200000003))).isSome = true := by decide

theorem witness_OnlyAdrChangesTheMode :
    (indi [0x1500000000] 0 0 []).Inv ∧ after (fun t => t.ind) (step (indi [0x1500000000] 0 0 [])) = some false :=
  ⟨⟨by decide, by decide, by decide, by decide, by decide⟩, by decide⟩

/-- At the last cell, and a write of 0 that removes an entry. -/
theorem witness_OnlySavChangesMemory :
    ((dir [0x1200000063] 7 0).Inv ∧ after (fun t => t.mem.read 99) (step (dir [0x1200000063] 7 0)) = some 7 ∧
      (dir [0x1200000063] 7 0).mem.read 99 = 0) ∧
    ((indi [0x1200000003] 0 0 [(3, 3)]).Inv ∧
      after (fun t => t.mem) (step (indi [0x1200000003] 0 0 [(3, 3)])) = some []) :=
  ⟨⟨⟨by decide, by decide, by decide, by decide, by decide⟩, by decide⟩,
    ⟨⟨by decide, by decide, by decide, by decide, by decide⟩, by decide⟩⟩

/-- By a HLT, and by a jump to -2 (V-C5, V-C17). -/
theorem witness_MinusOneIsReachedInTwoWays :
    ((dir p1 8 3).Inv ∧ (dir p1 8 3).pc ≠ -1 ∧ after (fun t => t.pc) (step (dir p1 8 3)) = some (-1)) ∧
    ((indi [0x0F00000002] 0 0 [(2, -2)]).Inv ∧
      after (fun t => t.pc) (step (indi [0x0F00000002] 0 0 [(2, -2)])) = some (-1)) :=
  ⟨⟨⟨by decide, by decide, by decide, by decide, by decide⟩, by decide⟩,
    ⟨⟨by decide, by decide, by decide, by decide, by decide⟩, by decide⟩⟩

theorem witness_HaltedOnlyByTheHaltCheck :
    after (fun t => t.run) (step (dir p1 8 (-1))) = some .halted := by decide

/-- Outside on both sides, inside at both ends, with canonical memory. -/
theorem witness_MemoryPrimitivesCheckTheirAddress :
    (-1 : Word).toInt < 0 ∧ ((dir [] 0 0).cfg.memSize : Int) ≤ (100 : Word).toInt ∧ 0 ≤ (0 : Word).toInt ∧
      (99 : Word).toInt < (dir [] 0 0).cfg.memSize ∧ (indi [] 0 0 [(3, 99)]).mem.wf = true := by decide

theorem witness_MemoriesWithEqualCellsAreEqual :
    Memory.wf [(3, 99), (5, -1)] = true ∧ Memory.wf (Memory.write [(3, 99)] 5 (-1)) = true ∧
      ∀ a, Memory.read [(3, 99), (5, -1)] a = Memory.read (Memory.write [(3, 99)] 5 (-1)) a :=
  ⟨by decide, by decide, fun _ => rfl⟩

theorem witness_MemoryWriteKeepsTheCanonicalForm :
    (indi [] 0 0 [(3, 99)]).mem.wf = true ∧
      memWrite 3 0 (indi [] 0 0 [(3, 99)]) = .ok (indi [] 0 0 []) :=
  ⟨by decide, rfl⟩

theorem witness_EncodeOfDecode : decode 0x15FFFFFFFF = .ok (.adr (-1)) := by decide

/-- Fitting at both ends of both fields, and just outside each. -/
theorem witness_RecordsThatDoNotFitAreRefused :
    (0 ≤ (Record.mk 255 2147483647).opcode ∧ (Record.mk 255 2147483647).opcode ≤ 255 ∧
      (Record.mk 255 2147483647).operand < 2 ^ 31) ∧
    -(2 ^ 31) ≤ (Record.mk 0 (-2147483648)).operand ∧
    ¬((Record.mk 256 0).opcode ≤ 255) ∧ ¬((Record.mk 0 2147483648).operand < 2 ^ 31) := by decide

theorem witness_FirstStepFetchesAddressZero :
    configLegal (State.resetWith (cfg true) p1) = true ∧ p1[0]? = some 0x0100000005 ∧
      decode 0x0100000005 = .ok (.mov 5) ∧ configLegal (State.resetWith (cfg false) []) = true := by decide

theorem witness_ReportsAreReadableAtTheEnd :
    (dir p1 8 (-1)).halt.run = .halted ∧ (dir p1 8 3).run ≠ .halted ∧
      { dir p1 8 3 with run := .faulted }.run = .faulted := by decide

/-- From reset, and from a state no program fits. -/
theorem witness_PlacedWordRunsNext :
    (0x0100000005 : Nat) < 2 ^ 40 ∧ decode (BitVec.ofNat 40 0x0100000005) = .ok (.mov 5) ∧
      after (fun t => t.acc) (step (State.reset.withFetchWord 40 0x0100000005)) = some 5 ∧
      after (fun t => t.acc) (step (State.withFetchWord (full p1 true (-1) (-1) 0) 40 0x0100000003)) = some 99 ∧
      after (fun t => t.fault.code) (step (State.withFetchWord State.reset 40 0x0500000000)) = some .divisionByZero := by
  decide

end Sys2Proof.Machine.Tests
end

section
/-! PROOFS. The target of the opcode table (spec/10_state.md R23): `exec_cases` with its target made exact. -/

namespace Sys2Proof.Machine

/-! ## The jumps, their operand resolved -/

/-- A selection by truthiness (spec/43_logical.md R150), with the test spelled as `targetOf` spells it. -/
theorem ite_truthy {α : Type} (a : Word) (x y : α) :
    (if truthy a then x else y) = if a = 0 then y else x := by
  by_cases ha : a = 0
  · rw [if_pos ha, (truthy_false_iff a).2 ha, if_neg Bool.false_ne_true]
  · rw [if_neg ha, if_pos ((truthy_iff a).2 ha)]

theorem exec_jmp_of_operand {s : State} {k y : Word} (h : OperandIs s k y) :
    exec (.jmp k) s = .next (s.commit s.acc y) :=
  withOperand_ok h

theorem exec_jpz_of_operand {s : State} {k y : Word} (h : OperandIs s k y) :
    exec (.jpz k) s = .next (s.commit s.acc (if s.acc = 0 then y else s.pc)) := by
  rw [← ite_truthy]
  exact withOperand_ok h

theorem exec_jpn_of_operand {s : State} {k y : Word} (h : OperandIs s k y) :
    exec (.jpn k) s = .next (s.commit s.acc (if s.acc = 0 then s.pc else y)) := by
  rw [← ite_truthy]
  exact withOperand_ok h

/-! ## Every instruction -/

/-- What an arm does before its post-processing does not write the run state. -/
theorem SideEffect.run_eq {i : Instr} {s u : State} (h : SideEffect i s u) : u.run = s.run := by
  rcases h with ⟨_, _, _, _, _, rfl⟩ | ⟨_, _, rfl⟩ | ⟨_, _, rfl⟩
  · rw [State.setMem_run]
  · rw [State.toggleInd_run]
  · rfl

/-- `exec_cases` with the table's target. `TargetIs` alone does not fix it: it allows a jump that is taken
its own address too, so the three jumps are run here with their operand. -/
theorem exec_cases_targetOf (i : Instr) (s : State) :
    (∃ e, RaisesError i s e ∧ exec i s = .next (s.raise e (some i.opcode))) ∨
      (∃ y u a, OperandIs s i.operand y ∧ SideEffect i s u ∧
        exec i s = .next (u.commit a (targetOf i s.acc s.pc y))) := by
  rcases exec_cases i s with hraise | ⟨y, u, a, t, hy, hu, ht, h⟩
  · exact .inl hraise
  · refine .inr ⟨y, ?_⟩
    cases i with
    | jmp k => exact ⟨s, s.acc, hy, .inr (.inr ⟨by simp, by simp, rfl⟩), exec_jmp_of_operand hy⟩
    | jpz k => exact ⟨s, s.acc, hy, .inr (.inr ⟨by simp, by simp, rfl⟩), exec_jpz_of_operand hy⟩
    | jpn k => exact ⟨s, s.acc, hy, .inr (.inr ⟨by simp, by simp, rfl⟩), exec_jpn_of_operand hy⟩
    | hlt k =>
      obtain rfl : t = -2 := by simpa [TargetIs, wrap] using ht
      exact ⟨u, a, hy, hu, h⟩
    | nop k | mov k | add k | sub k | mul k | div k | and k | or k | not k | band k | bor k | bxor k
    | rotl k | rotr k | bnot k | sav k | lod k | adr k =>
      obtain rfl : t = s.pc := by simpa [TargetIs] using ht
      exact ⟨u, a, hy, hu, h⟩

/-- Settles O19: an instruction that raised has left `pc`, one that completed has committed the table's
target. -/
theorem pcAdvancesFromTheTableTarget : Obligations.PcAdvancesFromTheTableTarget := by
  intro i s t hrun hexec
  rcases exec_cases_targetOf i s with ⟨e, -, h⟩ | ⟨y, u, a, hy, hu, h⟩
  · obtain rfl : s.raise e (some i.opcode) = t := by simpa [h] using hexec
    exact .inr ⟨s.raise_run e _, s.raise_pc e _⟩
  · obtain rfl : u.commit a (targetOf i s.acc s.pc y) = t := by simpa [h] using hexec
    refine .inl ⟨?_, y, hy, ?_⟩
    · rw [State.commit_run, hu.run_eq, hrun]
    · exact wrap_succ _

end Sys2Proof.Machine
end

section
/-! PROOFS. The memory primitives (spec/20_memory.md R52, R53): what a read answers after a write. -/

namespace Sys2Proof.Machine

/-! ## A read after a write -/

theorem memRead_setMem_write_same {s : State} {a : Word} (v : Word) (hm : s.mem.wf = true)
    (ha : inBounds a s.cfg.memSize = true) :
    memRead a (s.setMem (s.mem.write a.toNat v)) = .ok v := by
  rw [memRead_ok (by simpa using ha), State.setMem_mem, Memory.read_write_same hm]

/-- A write to `a` changes no other read, whether it answers a cell or raises; this needs no form. -/
theorem memRead_setMem_write_other (s : State) {a b : Word} (v : Word) (hba : b ≠ a) :
    memRead b (s.setMem (s.mem.write a.toNat v)) = memRead b s := by
  cases hb : inBounds b s.cfg.memSize with
  | true =>
    have hcell : b.toNat ≠ a.toNat := fun h => hba (BitVec.eq_of_toNat_eq h)
    rw [memRead_ok hb, memRead_ok (by simpa using hb), State.setMem_mem,
      Memory.read_write_other s.mem v hcell]
  | false => rw [memRead_error hb, memRead_error (by simpa using hb)]

/-- Settles O43: outside the bounds both primitives raise; inside, a read answers the cell, and a write
gives a memory read back by the two lemmas above. -/
theorem memoryPrimitivesCheckTheirAddress : Obligations.MemoryPrimitivesCheckTheirAddress := by
  intro s a v
  refine ⟨fun hout => ?_, fun h₀ h₁ => ?_, fun hm h₀ h₁ => ?_⟩
  · have ha := (inBounds_false_iff ..).2 hout
    exact ⟨memRead_error ha, memWrite_error ha⟩
  · rw [memRead_ok ((inBounds_iff ..).2 ⟨h₀, h₁⟩), toNat_of_nonneg h₀]
  · have ha := (inBounds_iff ..).2 ⟨h₀, h₁⟩
    exact ⟨s.mem.write a.toNat v, memWrite_ok ha, memRead_setMem_write_same v hm ha,
      fun _ hba => memRead_setMem_write_other s v hba⟩

end Sys2Proof.Machine
end

section
/-! PROOFS. NOP and MOV (spec/41_move.md), from what every instruction shares: its word decodes to it
(spec/30_encoding.md R84), and an operand that cannot be resolved raises (spec/40_execution_cycle.md R107). -/

namespace Sys2Proof.Machine

/-! ## What every instruction shares -/

/-- R81, R84: the decoder reads an instruction back from its word. -/
theorem decode_encode (i : Instr) : decode (encode i) = .ok i := by
  obtain ⟨hop, hk⟩ := Laws.EncodeFields.fields i
  rw [decode, hop, hk]
  cases i <;> rfl

theorem raisedIn_raise (s : State) (e : FatalError) (op? : Option Opcode) :
    RaisedIn s (s.raise e op?) e.code := by
  simp [RaisedIn]

/-- R107: no instruction runs its arm where its operand cannot be resolved. -/
theorem exec_of_operandFails {i : Instr} {s : State} (h : OperandFails s i.operand) :
    exec i s = .next (s.raise (.memoryAccessError i.operand) (some i.opcode)) := by
  cases i <;> exact withOperand_error h

theorem raisesUnresolved_of_operand {c : Word → Instr} (hc : ∀ k, (c k).operand = k) :
    RaisesUnresolved c := by
  intro s k hk
  have hexec := exec_of_operandFails (i := c k) (by rwa [hc])
  rw [hc] at hexec
  exact ⟨_, hexec, raisedIn_raise s _ _, rfl, rfl⟩

/-! ## The instructions, their operand resolved -/

theorem exec_nop_of_operand {s : State} {k y : Word} (h : OperandIs s k y) :
    exec (.nop k) s = .next { s with pc := s.pc + 1 } :=
  (withOperand_ok h).trans (finish_eq s.acc s.pc s)

theorem exec_mov_of_operand {s : State} {k y : Word} (h : OperandIs s k y) :
    exec (.mov k) s = .next { s with acc := y, pc := s.pc + 1 } :=
  (withOperand_ok h).trans (finish_eq y s.pc s)

/-- R192, its effective address in range. -/
theorem exec_lod_of_operand {s : State} {k y : Word} (h : OperandIs s k y) (h₀ : 0 ≤ y.toInt)
    (h₁ : y.toInt < s.cfg.memSize) :
    exec (.lod k) s = .next { s with acc := s.mem.read y.toInt.toNat, pc := s.pc + 1 } := by
  have harm : exec (.lod k) s = _ := withOperand_ok h
  rw [harm, memRead_ok ((inBounds_iff ..).2 ⟨h₀, h₁⟩), toNat_of_nonneg h₀]
  exact finish_eq _ s.pc s

/-- Settles O1: the word is NOP's own, and NOP ends with the accumulator it began with. -/
theorem nopChangesPcOnly : Obligations.NopChangesPcOnly :=
  ⟨fun k => decode_encode (.nop k), fun _ _ _ h => exec_nop_of_operand h,
    raisesUnresolved_of_operand fun _ => rfl⟩

/-- Settles O2: the cell MOV's resolution reads in indirect mode is the cell LOD's arm reads in direct mode,
where the operand of LOD is the address itself. -/
theorem movLoadsResolvedOperand : Obligations.MovLoadsResolvedOperand := by
  refine ⟨fun k => decode_encode (.mov k), fun _ _ _ h => exec_mov_of_operand h, fun s k hind h₀ h₁ => ?_⟩
  have hmov : OperandIs s k (s.mem.read k.toInt.toNat) := .inr ⟨hind, h₀, h₁, rfl⟩
  have hlod : OperandIs { s with ind := false } k k := .inl ⟨rfl, rfl⟩
  exact ⟨_, exec_mov_of_operand hmov, exec_lod_of_operand hlod h₀ h₁⟩

end Sys2Proof.Machine
end

section
/-! PROOFS. AND, OR, NOT (spec/43_logical.md): a test of truthiness is a test against 0, and the arm commits
the value selected. -/

namespace Sys2Proof.Machine

/-! ## The instructions, their operand resolved -/

theorem exec_and_of_operand {s : State} {k y : Word} (h : OperandIs s k y) :
    exec (.and k) s = .next { s with acc := if s.acc = 0 then s.acc else y, pc := s.pc + 1 } := by
  rw [← ite_truthy]
  exact (withOperand_ok h).trans (finish_eq _ s.pc s)

theorem exec_or_of_operand {s : State} {k y : Word} (h : OperandIs s k y) :
    exec (.or k) s = .next { s with acc := if s.acc = 0 then y else s.acc, pc := s.pc + 1 } := by
  rw [← ite_truthy]
  exact (withOperand_ok h).trans (finish_eq _ s.pc s)

/-- R153: the operand must resolve, and its value is not used. -/
theorem exec_not_of_operand {s : State} {k y : Word} (h : OperandIs s k y) :
    exec (.not k) s = .next { s with acc := if s.acc = 0 then 1 else 0, pc := s.pc + 1 } := by
  rw [← ite_truthy]
  exact (withOperand_ok h).trans (finish_eq _ s.pc s)

/-- Settles O6: the words are the instructions' own, and each arm selects by the same test against 0. -/
theorem logicalSelectByTruthiness : Obligations.LogicalSelectByTruthiness :=
  ⟨fun k => ⟨decode_encode (.and k), decode_encode (.or k), decode_encode (.not k)⟩,
    fun _ _ _ h => ⟨exec_and_of_operand h, exec_or_of_operand h, exec_not_of_operand h⟩,
    raisesUnresolved_of_operand fun _ => rfl⟩

end Sys2Proof.Machine
end

section
/-! PROOFS. BAND, BOR, BXOR, BNOT (spec/44_bitwise_rotate.md): each arm commits the library's operation on
words, and the library says what its bits are. -/

namespace Sys2Proof.Machine

/-! ## The complement of a word -/

/-- The complement is the subtraction from the word of ones, which reads -1. -/
theorem wrap_neg_sub_one (a : Word) : wrap (-a.toInt - 1) = ~~~a := by
  have hones : (BitVec.allOnes 32).toInt = -1 := by decide
  rw [← BitVec.allOnes_sub_eq_not, ← wrap_sub, hones, neg_sub_comm]

/-- R166: the complement never wraps, because `-a - 1` fits a word exactly where `a` does. -/
theorem toInt_not_eq (a : Word) : (~~~a).toInt = -a.toInt - 1 := by
  have hlow : -2 ^ 31 ≤ a.toInt := a.le_toInt
  have hhigh : a.toInt < 2 ^ 31 := a.toInt_lt
  rw [← wrap_neg_sub_one, toInt_wrap_of_fits] <;> omega

/-! ## The instructions, their operand resolved -/

theorem exec_band_of_operand {s : State} {k y : Word} (h : OperandIs s k y) :
    exec (.band k) s = .next { s with acc := s.acc &&& y, pc := s.pc + 1 } :=
  (withOperand_ok h).trans (finish_eq _ s.pc s)

theorem exec_bor_of_operand {s : State} {k y : Word} (h : OperandIs s k y) :
    exec (.bor k) s = .next { s with acc := s.acc ||| y, pc := s.pc + 1 } :=
  (withOperand_ok h).trans (finish_eq _ s.pc s)

theorem exec_bxor_of_operand {s : State} {k y : Word} (h : OperandIs s k y) :
    exec (.bxor k) s = .next { s with acc := s.acc ^^^ y, pc := s.pc + 1 } :=
  (withOperand_ok h).trans (finish_eq _ s.pc s)

/-- R166: the operand must resolve, and its value is not used. -/
theorem exec_bnot_of_operand {s : State} {k y : Word} (h : OperandIs s k y) :
    exec (.bnot k) s = .next { s with acc := ~~~s.acc, pc := s.pc + 1 } :=
  (withOperand_ok h).trans (finish_eq _ s.pc s)

/-- Settles O7: the words are the instructions' own, and the accumulator committed is the library's bitwise
operation, read bit by bit; BNOT's signed value is `toInt_not_eq`. -/
theorem bitwiseActsBitByBit : Obligations.BitwiseActsBitByBit := by
  refine ⟨fun k => ⟨decode_encode (.band k), decode_encode (.bor k), decode_encode (.bxor k),
    decode_encode (.bnot k)⟩, fun s k y h => ⟨?band, ?bor, ?bxor, ?bnot⟩,
    raisesUnresolved_of_operand fun _ => rfl⟩
  case band => exact ⟨_, exec_band_of_operand h, fun _ _ => BitVec.getLsbD_and⟩
  case bor => exact ⟨_, exec_bor_of_operand h, fun _ _ => BitVec.getLsbD_or⟩
  case bxor => exact ⟨_, exec_bxor_of_operand h, fun _ _ => BitVec.getLsbD_xor⟩
  case bnot =>
    have hbits : ∀ n < 32, (~~~s.acc).getLsbD n = !s.acc.getLsbD n := fun n hn => by
      simp [hn]
    exact ⟨_, exec_bnot_of_operand h, hbits, toInt_not_eq s.acc⟩

end Sys2Proof.Machine
end

section
/-! PROOFS. JMP, JPZ, JPN (spec/45_control_transfer.md): a jump commits its target beside the accumulator it
began with, and the commit adds the universal 1 to the target selected (R180). -/

namespace Sys2Proof.Machine

/-- R180: to commit a target beside the same accumulator writes `pc` alone, one after the target. -/
theorem commit_acc_eq (s : State) (t : Word) : s.commit s.acc t = { s with pc := t + 1 } := by
  rw [State.commit, wrap_succ]
  rfl

/-- Settles O10: the words are the instructions' own, and each jump commits the target its test against 0
selects. -/
theorem jumpsLandOneAfterTheirOperand : Obligations.JumpsLandOneAfterTheirOperand := by
  refine ⟨fun k => ⟨decode_encode (.jmp k), decode_encode (.jpz k), decode_encode (.jpn k)⟩,
    fun s k y h => ⟨?jmp, ?jpz, ?jpn⟩, raisesUnresolved_of_operand fun _ => rfl,
    raisesUnresolved_of_operand fun _ => rfl, raisesUnresolved_of_operand fun _ => rfl⟩
  case jmp => rw [exec_jmp_of_operand h, commit_acc_eq]
  case jpz => rw [exec_jpz_of_operand h, commit_acc_eq, apply_ite (· + 1)]
  case jpn => rw [exec_jpn_of_operand h, commit_acc_eq, apply_ite (· + 1)]

end Sys2Proof.Machine
end

section
/-! PROOFS. SAV and LOD (spec/46_load_store.md): the resolved operand is the address of one data memory access,
whose bounds check decides between the one cell and MemoryAccessError (R193). -/

namespace Sys2Proof.Machine

/-! ## The instructions, their effective address in range or not -/

/-- R191, its effective address in range. -/
theorem exec_sav_of_operand {s : State} {k y : Word} (h : OperandIs s k y) (h₀ : 0 ≤ y.toInt)
    (h₁ : y.toInt < s.cfg.memSize) :
    exec (.sav k) s = .next { s with mem := s.mem.write y.toInt.toNat s.acc, pc := s.pc + 1 } := by
  have harm : exec (.sav k) s = _ := withOperand_ok h
  rw [harm, memWrite_ok ((inBounds_iff ..).2 ⟨h₀, h₁⟩), toNat_of_nonneg h₀]
  exact finish_eq s.acc s.pc _

theorem exec_sav_of_outOfRange {s : State} {k y : Word} (h : OperandIs s k y)
    (hout : y.toInt < 0 ∨ (s.cfg.memSize : Int) ≤ y.toInt) :
    exec (.sav k) s = .next (s.raise (.memoryAccessError y) (some (Instr.sav k).opcode)) := by
  have harm : exec (.sav k) s = _ := withOperand_ok h
  rw [harm, memWrite_error ((inBounds_false_iff ..).2 hout)]
  rfl

theorem exec_lod_of_outOfRange {s : State} {k y : Word} (h : OperandIs s k y)
    (hout : y.toInt < 0 ∨ (s.cfg.memSize : Int) ≤ y.toInt) :
    exec (.lod k) s = .next (s.raise (.memoryAccessError y) (some (Instr.lod k).opcode)) := by
  have harm : exec (.lod k) s = _ := withOperand_ok h
  rw [harm, memRead_error ((inBounds_false_iff ..).2 hout)]
  rfl

/-- R34, R38: reset leaves 0 in every cell. -/
@[simp] theorem read_resetWith (cfg : Params) (prog : List InsnWord) (a : Nat) :
    (State.resetWith cfg prog).mem.read a = 0 :=
  rfl

/-- Settles O12: in range SAV commits memory with one cell written, and the laws of memory say what each cell
then reads; only the written cell needs the canonical form. -/
theorem savWritesOneCell : Obligations.SavWritesOneCell := by
  refine ⟨fun k => decode_encode (.sav k), fun s k y hm hy h₀ h₁ => ?inRange, fun s k y hy hout => ?outOfRange,
    raisesUnresolved_of_operand fun _ => rfl⟩
  case inRange =>
    exact ⟨_, exec_sav_of_operand hy h₀ h₁, Memory.read_write_same hm _ _,
      fun _ ha => Memory.read_write_other s.mem s.acc ha⟩
  case outOfRange => exact ⟨_, exec_sav_of_outOfRange hy hout, raisedIn_raise s _ _, rfl⟩

/-- Settles O11: in range LOD commits the cell, and a cell that reads as reset left it reads 0. -/
theorem lodReadsOneCell : Obligations.LodReadsOneCell := by
  refine ⟨fun k => decode_encode (.lod k), fun _ _ _ hy h₀ h₁ => exec_lod_of_operand hy h₀ h₁,
    fun cfg prog s k y hy h₀ h₁ hcell => ?asReset, fun s k y hy hout => ?outOfRange,
    raisesUnresolved_of_operand fun _ => rfl⟩
  case asReset => rw [exec_lod_of_operand hy h₀ h₁, hcell, read_resetWith]
  case outOfRange => exact ⟨_, exec_lod_of_outOfRange hy hout, raisedIn_raise s _ _, rfl⟩

end Sys2Proof.Machine
end

section
/-! PROOFS. ADR (spec/47_system.md): the operand is resolved before the mode is inverted. -/

namespace Sys2Proof.Machine

/-- R203: `h` is resolution under the old mode, and the post-processing starts from the inverted one. -/
theorem exec_adr_of_operand {s : State} {k y : Word} (h : OperandIs s k y) :
    exec (.adr k) s = .next { s with ind := !s.ind, pc := s.pc + 1 } :=
  (withOperand_ok h).trans (finish_eq s.acc s.pc s.toggleInd)

/-- Settles O14: the word is ADR's own, and an operand that cannot be resolved raises before the arm that
inverts the mode. -/
theorem adrInvertsTheMode : Obligations.AdrInvertsTheMode :=
  ⟨fun k => decode_encode (.adr k), fun _ _ _ h => exec_adr_of_operand h,
    raisesUnresolved_of_operand fun _ => rfl⟩

end Sys2Proof.Machine
end

section
/-! PROOFS. The fetch (spec/48_fetch_prefetch.md R210, R211): an equation for a hit, and one for each answer
of the program memory on a miss. -/

namespace Sys2Proof.Machine

/-- R57, at an address of the program. -/
theorem progRead_of_wordAt {s : State} {p : Word} {w : InsnWord} (h : WordAt s p w) :
    progRead p s.prog = .ok w := by
  obtain ⟨h₀, hw⟩ := h
  exact progRead_ok h₀ (by rwa [toNat_of_nonneg h₀])

/-! ## The fetch, case by case -/

theorem fetch_of_hits {s : State} (h : Hits s) :
    fetch s = (.ok s.cl.insn, s.delay s.cfg.fetchTime) := by
  rw [fetch, if_pos ((fetchHits_iff s).2 h)]

theorem fetch_of_miss_wordAt {s : State} {w : InsnWord} (h : ¬Hits s) (hw : WordAt s s.pc w) :
    fetch s = (.ok w, ((s.delay s.cfg.fetchTime).delay s.cfg.missPenalty).fillLine s.pc w) := by
  rw [fetch, if_neg (mt (fetchHits_iff s).1 h), progRead_of_wordAt hw]

theorem fetch_of_miss_outsideProgram {s : State} (h : ¬Hits s) (hout : OutsideProgram s s.pc) :
    fetch s = (.error (.programBoundsError s.pc), (s.delay s.cfg.fetchTime).delay s.cfg.missPenalty) := by
  rw [fetch, if_neg (mt (fetchHits_iff s).1 h), progRead_error hout]

/-- R211: an EMPTY line never hits, whatever its tag. -/
theorem not_hits_of_empty {s : State} (h : s.cl.valid = false) : ¬Hits s := by
  rintro ⟨hvalid, -⟩
  rw [h] at hvalid
  exact Bool.false_ne_true hvalid

/-- Settles O29: each clause is the fetch's equation for its case, and an EMPTY line is no hit. -/
theorem fetchHitsOrMisses : Obligations.FetchHitsOrMisses :=
  fun _ => ⟨fetch_of_hits, fun hmiss _ hw => fetch_of_miss_wordAt hmiss hw,
    fun hmiss hout => fetch_of_miss_outsideProgram hmiss hout, not_hits_of_empty⟩

end Sys2Proof.Machine
end

section
/-! PROOFS. DivisionByZero (spec/60_exceptions.md R244): an instruction records the one error it raises, and a
step that runs an instruction runs the one the program memory holds at `pc`. -/

namespace Sys2Proof.Machine

/-! ## A word that decodes -/

/-- R81: a word is its two fields. -/
theorem insnWord_fields (w : InsnWord) : insnWord (InsnWord.opcode w) (InsnWord.operand w) = w := by
  have happend := BitVec.extractLsb'_append_extractLsb'_eq_extractLsb' (x := w) (start₁ := 0) (len₁ := 32)
    (start₂ := 32) (len₂ := 8) rfl
  exact happend.trans BitVec.extractLsb'_eq_self

/-- R82, R84: the decoder takes both fields of the instruction from the word. -/
theorem fields_of_decode {w : InsnWord} {i : Instr} (h : decode w = .ok i) :
    i.opcode = InsnWord.opcode w ∧ i.operand = InsnWord.operand w := by
  unfold decode at h
  split at h <;> cases h <;>
    exact ⟨BitVec.eq_of_toNat_eq ‹(InsnWord.opcode w).toNat = _›.symm, rfl⟩

/-- The other direction of `decode_encode`. -/
theorem encode_of_decode {w : InsnWord} {i : Instr} (h : decode w = .ok i) : encode i = w := by
  obtain ⟨hop, hk⟩ := fields_of_decode h
  rw [encode, hop, hk, insnWord_fields]

/-! ## What a step runs -/

theorem wordAt_of_progRead {s : State} {p : Word} {w : InsnWord} (h : progRead p s.prog = .ok w) :
    WordAt s p w := by
  rcases progRead_cases p s.prog with ⟨w', hw, h₀, hp⟩ | ⟨he, -⟩
  · obtain rfl : w' = w := by simpa [hw] using h
    exact ⟨h₀, by rwa [← toNat_of_nonneg h₀]⟩
  · simp [he] at h

/-- All that a step that answers a next state can do, with R31: the halt check ended it (R101), the fetch or
the opcode check raised (R57, R103), or it ran the instruction at `pc`. -/
theorem step_next_cases {s t : State} (hline : s.LineOk) (h : step s = .next t) :
    s.run = .running ∧
      ((s.pc = -1 ∧ t = s.halt) ∨
        (∃ s' : State, t = s'.raise (.programBoundsError s.pc) none) ∨
        (∃ (s' : State) (op : Opcode), t = s'.raise .unknownOpcode (some op)) ∨
        (∃ i l n, InstrAt s s.pc i ∧ exec i { s with cl := l, lat := n } = .next t)) := by
  rcases step_cases s with ⟨-, hs⟩ | ⟨-, hs⟩ | ⟨-, -, hs⟩ | ⟨hrun, -, hpc, hs⟩ | ⟨⟨hrun, -, -⟩, hs⟩ <;>
    rw [hs] at h
  · cases h
  · cases h
  · cases h
  · cases h
    exact ⟨hrun, .inl ⟨hpc, rfl⟩⟩
  · refine ⟨hrun, .inr ?_⟩
    rcases cycle_cases s with ⟨s', -, hc⟩ | ⟨w, s', hfetch, hc⟩ <;> rw [hc] at h
    · cases h
      exact .inl ⟨s', rfl⟩
    · rcases dispatch_cases w (prefetchIfEnabled s') with ⟨i, hdec, hd⟩ | ⟨op, -, hd⟩ <;> rw [hd] at h
      · obtain ⟨l, n, hframe⟩ := fetched_frame hfetch
        have hread : progRead s.pc s.prog = .ok w := by rw [← fetch_returns hline, hfetch]
        have hat : InstrAt s s.pc i := by
          rw [InstrAt, encode_of_decode hdec]
          exact wordAt_of_progRead hread
        exact .inr (.inr ⟨i, l, n, hat, by rwa [← hframe]⟩)
      · cases h
        exact .inr (.inl ⟨_, op, rfl⟩)

/-! ## What an instruction records -/

/-- R244, its operand 0. -/
theorem exec_div_of_zero {s : State} {k : Word} (h : OperandIs s k 0) :
    exec (.div k) s = .next (s.raise .divisionByZero (some (Instr.div k).opcode)) :=
  withOperand_ok h

/-- What an arm does before its post-processing does not write the fault record. -/
theorem SideEffect.fault_eq {i : Instr} {s u : State} (h : SideEffect i s u) : u.fault = s.fault := by
  rcases h with ⟨_, _, _, _, _, rfl⟩ | ⟨_, _, rfl⟩ | ⟨_, _, rfl⟩
  · rw [State.setMem_fault]
  · rw [State.toggleInd_fault]
  · rfl

/-- An instruction that changes the recorded code raised the error of the new code. -/
theorem raisesError_of_code_ne {i : Instr} {s t : State} (hexec : exec i s = .next t)
    (hne : t.fault.code ≠ s.fault.code) : ∃ e, RaisesError i s e ∧ t.fault.code = e.code := by
  rcases exec_cases i s with ⟨e, he, h⟩ | ⟨_, u, a, p, _, hu, _, h⟩
  · obtain rfl : s.raise e (some i.opcode) = t := by simpa [h] using hexec
    exact ⟨e, he, by rw [State.raise_fault]⟩
  · obtain rfl : u.commit a p = t := by simpa [h] using hexec
    exact absurd (by rw [State.commit_fault, hu.fault_eq]) hne

/-- Of the ways to raise, only DIV's has this code; the other two are MemoryAccessErrors. -/
theorem RaisesError.div_of_code {i : Instr} {s : State} {e : FatalError} (h : RaisesError i s e)
    (hcode : e.code = .divisionByZero) : ∃ k, i = .div k ∧ OperandIs s k 0 := by
  rcases h with ⟨-, rfl⟩ | ⟨k, hi, hk, -⟩ | ⟨_, _, -, -, -, rfl⟩
  · simp [FatalError.code] at hcode
  · exact ⟨k, hi, hk⟩
  · simp [FatalError.code] at hcode

theorem div_of_records_divisionByZero {i : Instr} {s t : State} (hnone : s.fault.code = .none)
    (hexec : exec i s = .next t) (hcode : t.fault.code = .divisionByZero) :
    ∃ k, i = .div k ∧ OperandIs s k 0 := by
  obtain ⟨e, he, hte⟩ := raisesError_of_code_ne hexec (by simp [hnone, hcode])
  exact he.div_of_code (by rw [← hte, hcode])

theorem State.Inv.code_of_running {s : State} (h : s.Inv) (hrun : s.run = .running) :
    s.fault.code = .none := by
  by_contra hcode
  have hfaulted := h.record.2 hcode
  simp [hrun] at hfaulted

/-- Settles O5: only the instruction a step runs can record the code, since the halt check writes no record
and the fetch and the opcode check raise other errors; and of instructions only DIV raises it. -/
theorem divisionByZeroIsOfDivAlone : Obligations.DivisionByZeroIsOfDivAlone := by
  refine ⟨fun s k hk => ⟨_, exec_div_of_zero hk, raisedIn_raise s _ _⟩,
    fun i s t hnone hexec hcode => div_of_records_divisionByZero hnone hexec hcode,
    fun s t hinv hstep hcode => ?_⟩
  obtain ⟨hrun, hcases⟩ := step_next_cases hinv.line hstep
  have hnone := hinv.code_of_running hrun
  rcases hcases with ⟨-, rfl⟩ | ⟨s', rfl⟩ | ⟨s', op, rfl⟩ | ⟨i, l, n, hat, hexec⟩
  · simp [hnone] at hcode
  · simp [FatalError.code] at hcode
  · simp [FatalError.code] at hcode
  · obtain ⟨k, rfl, hk⟩ :=
      div_of_records_divisionByZero (s := { s with cl := l, lat := n }) hnone hexec hcode
    exact ⟨k, hat, hk⟩

end Sys2Proof.Machine
end

section
/-! PROOFS. The inversion of a step that answers a next state, with everything it did: what every claim about
one step of the machine is read from. -/

namespace Sys2Proof.Machine

/-! ## An instruction that answered -/

theorem exec_next_cases {i : Instr} {s t : State} (h : exec i s = .next t) :
    (∃ e, RaisesError i s e ∧ t = s.raise e (some i.opcode)) ∨
      (∃ y u a, OperandIs s i.operand y ∧ SideEffect i s u ∧ t = u.commit a (targetOf i s.acc s.pc y)) := by
  rcases exec_cases_targetOf i s with ⟨e, he, hexec⟩ | ⟨y, u, a, hy, hu, hexec⟩
  · exact .inl ⟨e, he, Host.Outcome.next.inj (h.symm.trans hexec)⟩
  · exact .inr ⟨y, u, a, hy, hu, Host.Outcome.next.inj (h.symm.trans hexec)⟩

/-- What an arm does before its post-processing writes the memory and the mode only. -/
theorem SideEffect.frame {i : Instr} {s u : State} (h : SideEffect i s u) :
    ∃ m b, u = { s with mem := m, ind := b } := by
  rcases h with ⟨_, _, _, _, _, rfl⟩ | ⟨_, _, rfl⟩ | ⟨_, _, rfl⟩ <;> exact ⟨_, _, rfl⟩

theorem FatalError.code_ne_none (e : FatalError) : e.code ≠ .none := by
  cases e <;> simp [FatalError.code]

/-! ## A fetch that succeeded -/

/-- The fetch of `s` returned `w`, and with the prefetch it left `u` (lines 2 and 3 of R100). -/
def Fetched (s : State) (w : InsnWord) (u : State) : Prop :=
  ∃ s', fetch s = (.ok w, s') ∧ prefetchIfEnabled s' = u

variable {s u t : State} {w : InsnWord}

theorem Fetched.frame (h : Fetched s w u) : ∃ l n, u = { s with cl := l, lat := n } := by
  obtain ⟨s', hfetch, rfl⟩ := h
  exact fetched_frame hfetch

/-- R216: with R31 the word fetched is the program's word at `pc`. -/
theorem Fetched.wordAt (h : Fetched s w u) (hline : s.LineOk) : WordAt s s.pc w := by
  obtain ⟨s', hfetch, -⟩ := h
  exact wordAt_of_progRead (by rw [← fetch_returns hline, hfetch])

theorem Fetched.lineOk (h : Fetched s w u) (hline : s.LineOk) : u.LineOk := by
  obtain ⟨s', hfetch, rfl⟩ := h
  have hline' := lineOk_fetch hline
  rw [hfetch] at hline'
  exact lineOk_prefetchIfEnabled hline'

theorem not_outsideProgram_of_wordAt {p : Word} (h : WordAt s p w) : ¬OutsideProgram s p := by
  obtain ⟨h₀, hw⟩ := h
  have hlt := (List.getElem?_eq_some_iff.1 hw).1
  simp only [OutsideProgram]
  omega

theorem outsideProgram_of_progRead {p : Word} {e : FatalError} (h : progRead p s.prog = .error e) :
    OutsideProgram s p := by
  rcases progRead_cases p s.prog with ⟨w, hw, -⟩ | ⟨-, hout⟩
  · simp [hw] at h
  · exact hout

theorem not_hits_of_fetchHits (h : fetchHits s = false) : ¬Hits s := by
  rw [Hits, ← fetchHits_iff, h]
  exact Bool.false_ne_true

/-- What a fetch that succeeds leaves (R210, R211): the line holds `pc` and the word, hit or miss. -/
theorem fetch_ok_eq {s' : State} (h : fetch s = (.ok w, s')) :
    (Hits s ∨ ¬OutsideProgram s s.pc) ∧
      s' = { s with
        cl := ⟨true, s.pc, w⟩
        lat := s.lat + s.cfg.fetchTime + (if Hits s then 0 else s.cfg.missPenalty) } := by
  rcases fetch_cases s with ⟨hhit, hf⟩ | ⟨hmiss, w', hread, hf⟩ | ⟨-, -, hf⟩ <;> rw [hf] at h <;> cases h
  · have hhits : Hits s := (fetchHits_iff s).1 hhit
    have hcl : s.cl = ⟨true, s.pc, s.cl.insn⟩ := by rw [← hhits.1, ← hhits.2]
    exact ⟨.inl hhits, by rw [if_pos hhits, ← hcl]; rfl⟩
  · refine ⟨.inr (not_outsideProgram_of_wordAt (wordAt_of_progRead hread)), ?_⟩
    rw [if_neg (not_hits_of_fetchHits hmiss)]
    rfl

theorem prefetchIfEnabled_lat (s : State) :
    (prefetchIfEnabled s).lat = s.lat + (if s.cfg.prefetchEn = true then s.cfg.prefetchTime else 0) := by
  unfold prefetchIfEnabled
  split
  · rcases prefetch_cases s with ⟨w, -, hp⟩ | ⟨-, hp⟩ <;> simp [hp]
  · rfl

/-- R221: what the fetch and the prefetch of a step add to the latency total. -/
theorem Fetched.lat_eq (h : Fetched s w u) :
    u.lat = s.lat + (s.cfg.fetchTime + (if Hits s then 0 else s.cfg.missPenalty) +
      (if s.cfg.prefetchEn = true then s.cfg.prefetchTime else 0)) := by
  obtain ⟨s', hfetch, rfl⟩ := h
  obtain ⟨-, rfl⟩ := fetch_ok_eq hfetch
  rw [prefetchIfEnabled_lat]
  simp only [add_assoc]

theorem Fetched.hits_or_inProgram (h : Fetched s w u) : Hits s ∨ ¬OutsideProgram s s.pc := by
  obtain ⟨s', hfetch, -⟩ := h
  exact (fetch_ok_eq hfetch).1

/-! ## The inversion -/

/-- What a step of `s` that answers `t` did: the halt check ended the run (R101), the fetch raised (R57), the
opcode check raised (R103), or the instruction of the fetched word raised or completed. -/
inductive Stepped (s : State) : State → Prop where
  | halt (hrun : s.run = .running) (hpc : s.pc = -1) : Stepped s s.halt
  | boundsError (hpass : PassesHaltCheck s) (hmiss : ¬Hits s) (hout : OutsideProgram s s.pc) :
      Stepped s (((s.delay s.cfg.fetchTime).delay s.cfg.missPenalty).raise (.programBoundsError s.pc) none)
  | unknownOpcode {w u op} (hpass : PassesHaltCheck s) (hfetch : Fetched s w u)
      (hdec : decode w = .error (.unknownOpcode op)) : Stepped s (u.raise .unknownOpcode (some op))
  | raised {w u i e} (hpass : PassesHaltCheck s) (hfetch : Fetched s w u) (hdec : decode w = .ok i)
      (he : RaisesError i u e) : Stepped s (u.raise e (some i.opcode))
  | completed {w u i y v a} (hpass : PassesHaltCheck s) (hfetch : Fetched s w u) (hdec : decode w = .ok i)
      (hy : OperandIs u i.operand y) (hv : SideEffect i u v) :
      Stepped s (v.commit a (targetOf i u.acc u.pc y))

theorem stepped_of_dispatch (hpass : PassesHaltCheck s) (hfetch : Fetched s w u)
    (h : dispatch w u = .next t) : Stepped s t := by
  rcases dispatch_cases w u with ⟨i, hdec, hd⟩ | ⟨op, hdec, hd⟩ <;> rw [hd] at h
  · rcases exec_next_cases h with ⟨e, he, rfl⟩ | ⟨y, v, a, hy, hv, rfl⟩
    · exact .raised hpass hfetch hdec he
    · exact .completed hpass hfetch hdec hy hv
  · cases h
    exact .unknownOpcode hpass hfetch hdec

theorem stepped_of_step (h : step s = .next t) : Stepped s t := by
  rcases step_cases s with ⟨-, hs⟩ | ⟨-, hs⟩ | ⟨-, -, hs⟩ | ⟨hrun, -, hpc, hs⟩ | ⟨hpass, hs⟩ <;> rw [hs] at h
  · cases h
  · cases h
  · cases h
  · cases h
    exact .halt hrun hpc
  · rcases fetch_cases s with ⟨-, hf⟩ | ⟨-, w, -, hf⟩ | ⟨hmiss, hread, hf⟩ <;> rw [cycle, hf] at h
    · exact stepped_of_dispatch hpass ⟨_, hf, rfl⟩ h
    · exact stepped_of_dispatch hpass ⟨_, hf, rfl⟩ h
    · cases h
      exact .boundsError hpass (not_hits_of_fetchHits hmiss) (outsideProgram_of_progRead hread)

end Sys2Proof.Machine
end

section
/-! PROOFS. The decoder and the encoder (spec/30_encoding.md): the words that decode, the words that do not, and
the words of records. -/

namespace Sys2Proof.Machine

/-! ## The words that decode -/

theorem decode_ok_of_opcode_lt {w : InsnWord} (h : (InsnWord.opcode w).toNat < 22) : ∃ i, decode w = .ok i := by
  unfold decode
  generalize (InsnWord.opcode w).toNat = n at h ⊢
  interval_cases n <;> exact ⟨_, rfl⟩

theorem decode_of_opcode_ge {w : InsnWord} (h : 22 ≤ (InsnWord.opcode w).toNat) :
    decode w = .error (.unknownOpcode (InsnWord.opcode w)) := by
  unfold decode
  split
  case h_23 => rfl
  all_goals omega

/-- R86: the decoder rejects only opcodes without a row, and names the one it rejects. -/
theorem opcode_of_decode_error {w : InsnWord} {op : Opcode} (h : decode w = .error (.unknownOpcode op)) :
    op = InsnWord.opcode w ∧ 22 ≤ (InsnWord.opcode w).toNat := by
  rcases Nat.lt_or_ge (InsnWord.opcode w).toNat 22 with hlt | hge
  · obtain ⟨i, hi⟩ := decode_ok_of_opcode_lt hlt
    simp [hi] at h
  · have hop : InsnWord.opcode w = op := by simpa [decode_of_opcode_ge hge] using h
    exact ⟨hop.symm, hge⟩

/-- Settles O45: the decoder reads both fields of the word back. -/
theorem decodeOfEncode : Obligations.DecodeOfEncode :=
  decode_encode

/-- Settles O46: the decoder takes both fields of the instruction from the word, and a word is its fields. -/
theorem encodeOfDecode : Obligations.EncodeOfDecode :=
  fun _ _ h => encode_of_decode h

/-- Settles O47: below 22 every opcode has a row, from 22 on none has. -/
theorem opcodesWithoutARowAreRejected : Obligations.OpcodesWithoutARowAreRejected :=
  fun _ => ⟨fun h => (opcode_of_decode_error h).2, decode_of_opcode_ge⟩

/-- Settles O48, word by word. -/
theorem wordsFromTheSpecDecode : Obligations.WordsFromTheSpecDecode := by
  refine ⟨?_, ?_, ?_, ?_, ?_, ?_, ?_, ?_, ?_, ?_⟩ <;> decide

/-! ## The words of records -/

theorem Record.wf_iff (r : Record) :
    r.wf = true ↔ 0 ≤ r.opcode ∧ r.opcode ≤ 255 ∧ -(2 ^ 31) ≤ r.operand ∧ r.operand < 2 ^ 31 := by
  simp only [Record.wf, Record.opcodeOk, Record.operandOk, Bool.and_eq_true, decide_eq_true_eq]
  omega

theorem Record.toWord_of_wf {r : Record} (h : r.wf = true) :
    r.toWord = some (insnWord (BitVec.ofInt 8 r.opcode) (BitVec.ofInt 32 r.operand)) :=
  if_pos h

theorem Record.toWord_of_not_wf {r : Record} (h : ¬r.wf = true) : r.toWord = none :=
  if_neg h

/-- R89, R90: the record of an instruction fits, since its fields are a byte and a word. -/
theorem wf_toRecord (i : Instr) : i.toRecord.wf = true := by
  have hop := i.opcode.isLt
  have hlow := i.operand.le_toInt
  have hhigh := i.operand.toInt_lt
  rw [Record.wf_iff]
  simp only [Instr.toRecord]
  omega

/-- Settles O49: the two fields of a record's word are the record's own where both fit, and the record of an
instruction fits. -/
theorem recordsThatDoNotFitAreRefused : Obligations.RecordsThatDoNotFitAreRefused := by
  refine ⟨fun r h₀ h₁ h₂ h₃ => ?fits, fun r h => ?refused, fun i => ?instr⟩
  case fits =>
    refine ⟨_, Record.toWord_of_wf ((Record.wf_iff r).2 ⟨h₀, h₁, h₂, h₃⟩), ?_, ?_⟩
    · rw [Laws.EncodeFields.opcode_insnWord, BitVec.toNat_ofInt]
      omega
    · rw [Laws.EncodeFields.operand_insnWord]
      exact toInt_wrap_of_fits h₂ h₃
  case refused => exact Record.toWord_of_not_wf (mt (Record.wf_iff r).1 h)
  case instr =>
    rw [Record.toWord_of_wf (wf_toRecord i), encode, Instr.toRecord, BitVec.ofInt_toInt, BitVec.ofInt_natCast,
      BitVec.ofNat_toNat, BitVec.setWidth_eq]

end Sys2Proof.Machine
end

section
/-! PROOFS. What every step keeps and who writes what (spec/10_state.md sections 1 and 5,
spec/60_exceptions.md), read from `stepped_of_step` case by case. -/

namespace Sys2Proof.Machine

variable {s u v t : State} {w : InsnWord} {i : Instr}

theorem Fetched.instrAt (h : Fetched s w u) (hline : s.LineOk) (hdec : decode w = .ok i) :
    InstrAt s s.pc i := by
  rw [InstrAt, encode_of_decode hdec]
  exact h.wordAt hline

/-! ## The ends of a step -/

/-- A step that answers was taken in RUNNING, and it ended the run at the halt check, raised with only the line
and the latency total changed before, or left the run state and the record alone. -/
theorem Stepped.run_cases (h : Stepped s t) :
    s.run = .running ∧
      ((s.pc = -1 ∧ t = s.halt) ∨
        (∃ l n e op?, t = State.raise { s with cl := l, lat := n } e op?) ∨
        (t.run = .running ∧ t.fault = s.fault)) := by
  cases h with
  | halt hrun hpc => exact ⟨hrun, .inl ⟨hpc, rfl⟩⟩
  | boundsError hpass => exact ⟨hpass.1, .inr (.inl ⟨_, _, _, _, rfl⟩)⟩
  | unknownOpcode hpass hfetch | raised hpass hfetch =>
    obtain ⟨l, n, rfl⟩ := hfetch.frame
    exact ⟨hpass.1, .inr (.inl ⟨l, n, _, _, rfl⟩)⟩
  | completed hpass hfetch _ _ hv =>
    obtain ⟨l, n, rfl⟩ := hfetch.frame
    obtain ⟨m, b, rfl⟩ := hv.frame
    exact ⟨hpass.1, .inr (.inr ⟨hpass.1, rfl⟩)⟩

/-- Settles O28: neither the halt check nor an instruction that completes writes the record. -/
theorem faultRecordIsWrittenOnce : Obligations.FaultRecordIsWrittenOnce := by
  intro s t hstep
  obtain ⟨hrun, ⟨-, rfl⟩ | ⟨l, n, e, op?, rfl⟩ | ⟨-, hfault⟩⟩ := (stepped_of_step hstep).run_cases
  · exact ⟨fun hne => absurd rfl hne, hrun⟩
  · exact ⟨fun _ => rfl, hrun⟩
  · exact ⟨fun hne => absurd hfault hne, hrun⟩

/-- Settles O42: a step that raises ends FAULTED, one that completes ends RUNNING. -/
theorem haltedOnlyByTheHaltCheck : Obligations.HaltedOnlyByTheHaltCheck := by
  intro s t hstep hhalted
  obtain ⟨-, ⟨hpc, rfl⟩ | ⟨l, n, e, op?, rfl⟩ | ⟨hrunning, -⟩⟩ := (stepped_of_step hstep).run_cases
  · exact ⟨hpc, rfl⟩
  · simp at hhalted
  · simp [hrunning] at hhalted

/-- Settles O26: whatever raised, it raised with only the line and the latency total changed. -/
theorem faultingStepWritesNothing : Obligations.FaultingStepWritesNothing := by
  intro s t hstep hfaulted
  obtain ⟨-, ⟨-, rfl⟩ | ⟨l, n, e, op?, rfl⟩ | ⟨hrunning, -⟩⟩ := (stepped_of_step hstep).run_cases
  · simp at hfaulted
  · exact ⟨rfl, rfl, rfl, rfl, rfl, rfl, e.code_ne_none, rfl⟩
  · simp [hrunning] at hfaulted

/-- Settles O38: no case of a step writes the program or the parameters. -/
theorem programAndParametersAreFixed : Obligations.ProgramAndParametersAreFixed := by
  intro s t hstep
  cases stepped_of_step hstep with
  | halt | boundsError => exact ⟨rfl, rfl⟩
  | unknownOpcode _ hfetch | raised _ hfetch =>
    obtain ⟨l, n, rfl⟩ := hfetch.frame
    exact ⟨rfl, rfl⟩
  | completed _ hfetch _ _ hv =>
    obtain ⟨l, n, rfl⟩ := hfetch.frame
    obtain ⟨m, b, rfl⟩ := hv.frame
    exact ⟨rfl, rfl⟩

/-! ## The errors -/

/-- The ways an instruction raises, as the table of R241 lists them. -/
theorem RaisesError.table {e : FatalError} (h : RaisesError i s e) :
    (e = .divisionByZero ∧ ∃ k, i = .div k ∧ OperandIs s k 0) ∨
      (∃ a, e = .memoryAccessError a ∧
        ((OperandFails s i.operand ∧ a = i.operand) ∨
          ∃ k y, (i = .sav k ∨ i = .lod k) ∧ OperandIs s k y ∧
            (y.toInt < 0 ∨ (s.cfg.memSize : Int) ≤ y.toInt) ∧ a = y)) := by
  rcases h with ⟨hk, rfl⟩ | ⟨k, hi, hk, rfl⟩ | ⟨k, y, hi, hy, hb, rfl⟩
  · exact .inr ⟨_, rfl, .inl ⟨hk, rfl⟩⟩
  · exact .inl ⟨rfl, k, hi, hk⟩
  · exact .inr ⟨_, rfl, .inr ⟨k, y, hi, hy, (inBounds_false_iff ..).1 hb, rfl⟩⟩

/-- Settles O27: each of the three ways a step raises has its rows of the table. -/
theorem eachErrorHasItsCause : Obligations.EachErrorHasItsCause := by
  intro s t hinv hstep hfaulted
  cases stepped_of_step hstep with
  | halt => simp at hfaulted
  | boundsError _ _ hout => exact .inl ⟨rfl, hout, rfl⟩
  | unknownOpcode _ hfetch hdec =>
    obtain ⟨rfl, hge⟩ := opcode_of_decode_error hdec
    exact .inr (.inl ⟨rfl, _, hfetch.wordAt hinv.line, hge, rfl⟩)
  | raised _ hfetch hdec he =>
    have hat := hfetch.instrAt hinv.line hdec
    obtain ⟨l, n, rfl⟩ := hfetch.frame
    rcases he.table with ⟨rfl, k, rfl, hk⟩ | ⟨a, rfl, hcause⟩
    · exact .inr (.inr (.inl ⟨rfl, k, hat, hk, rfl⟩))
    · exact .inr (.inr (.inr ⟨rfl, _, hat, rfl, hcause⟩))
  | completed hpass hfetch _ _ hv =>
    obtain ⟨l, n, rfl⟩ := hfetch.frame
    obtain ⟨m, b, rfl⟩ := hv.frame
    simp [hpass.1] at hfaulted

/-! ## The writers of the mode, of memory and of `pc` = -1 -/

/-- A step that changes the mode, the memory or `pc` other than by the halt check ran an instruction that
completed: the one the program holds at `pc`. -/
theorem Stepped.completed_of_ne (h : Stepped s t) (hline : s.LineOk)
    (hne : t.ind ≠ s.ind ∨ t.mem ≠ s.mem ∨ t.pc ≠ s.pc) :
    ∃ i y v a l n, InstrAt s s.pc i ∧ OperandIs s i.operand y ∧
      SideEffect i { s with cl := l, lat := n } v ∧ t = v.commit a (targetOf i s.acc s.pc y) := by
  cases h with
  | halt | boundsError => simp at hne
  | unknownOpcode _ hfetch | raised _ hfetch =>
    obtain ⟨l, n, rfl⟩ := hfetch.frame
    simp at hne
  | completed _ hfetch hdec hy hv =>
    have hat := hfetch.instrAt hline hdec
    obtain ⟨l, n, rfl⟩ := hfetch.frame
    exact ⟨_, _, _, _, l, n, hat, hy, hv, rfl⟩

/-- Settles O39: of the effects of an instruction that completes only ADR's is on the mode. -/
theorem onlyAdrChangesTheMode : Obligations.OnlyAdrChangesTheMode := by
  intro s t hinv hstep hne
  obtain ⟨i, y, v, a, l, n, hat, -, hv, rfl⟩ := (stepped_of_step hstep).completed_of_ne hinv.line (.inl hne)
  rcases hv with ⟨_, _, _, _, _, rfl⟩ | ⟨k, rfl, rfl⟩ | ⟨_, _, rfl⟩
  · simp at hne
  · exact ⟨k, hat, rfl⟩
  · simp at hne

/-- Settles O40: of the effects of an instruction that completes only SAV's is on memory, and a write changes
no other cell. -/
theorem onlySavChangesMemory : Obligations.OnlySavChangesMemory := by
  intro s t c hinv hstep hne
  have hmem : t.mem ≠ s.mem := fun h => hne (by rw [h])
  obtain ⟨i, y, v, a, l, n, hat, -, hv, rfl⟩ :=
    (stepped_of_step hstep).completed_of_ne hinv.line (.inr (.inl hmem))
  rcases hv with ⟨k, y', rfl, hy', hb, rfl⟩ | ⟨_, _, rfl⟩ | ⟨_, _, rfl⟩
  · obtain ⟨h₀, h₁⟩ := (inBounds_iff ..).1 hb
    obtain rfl : c = y'.toNat := by
      by_contra hc
      exact hne (Memory.read_write_other s.mem s.acc hc)
    exact ⟨k, y', hat, hy', h₀, h₁, toNat_of_nonneg h₀, Memory.read_write_same hinv.memWf _ _⟩
  · simp at hmem
  · simp at hmem

/-- The universal increment makes a target -1 only where the target is -2. -/
theorem eq_neg_two_of_add_one {p : Word} (h : p + 1 = -1) : p = -2 := by
  bv_omega

/-- Settles O41: the target of an instruction that completes is -2, which is no address of the program, so it
is HLT's sentinel or the operand of a taken jump. -/
theorem minusOneIsReachedInTwoWays : Obligations.MinusOneIsReachedInTwoWays := by
  intro s t hinv hstep hpc htpc
  obtain ⟨i, y, v, a, l, n, hat, hy, -, rfl⟩ :=
    (stepped_of_step hstep).completed_of_ne hinv.line (.inr (.inr (by rw [htpc]; exact hpc.symm)))
  have htarget : targetOf i s.acc s.pc y = -2 := eq_neg_two_of_add_one (by simpa using htpc)
  have hfall : s.pc ≠ -2 := by
    intro h
    have h₀ := hat.1
    rw [h] at h₀
    exact absurd h₀ (by decide)
  cases i with
  | hlt k => exact .inl ⟨k, hat⟩
  | jmp k =>
    obtain rfl : y = -2 := htarget
    exact .inr ⟨_, hat, hy, .inl ⟨k, rfl⟩⟩
  | jpz k =>
    by_cases hacc : s.acc = 0
    · obtain rfl : y = -2 := (if_pos hacc).symm.trans htarget
      exact .inr ⟨_, hat, hy, .inr (.inl ⟨⟨k, rfl⟩, hacc⟩)⟩
    · exact absurd ((if_neg hacc).symm.trans htarget) hfall
  | jpn k =>
    by_cases hacc : s.acc = 0
    · exact absurd ((if_pos hacc).symm.trans htarget) hfall
    · obtain rfl : y = -2 := (if_neg hacc).symm.trans htarget
      exact .inr ⟨_, hat, hy, .inr (.inr ⟨⟨k, rfl⟩, hacc⟩)⟩
  | nop k | mov k | add k | sub k | mul k | div k | and k | or k | not k | band k | bor k | bxor k | rotl k
  | rotr k | bnot k | sav k | lod k | adr k => exact absurd htarget hfall

end Sys2Proof.Machine
end

section
/-! PROOFS. The invariant (spec/10_state.md section 2, spec/20_memory.md section 1): reset meets it and every part
of a step keeps it. -/

namespace Sys2Proof.Machine

variable {s u v t : State} {w : InsnWord} {i : Instr}

/-- Of a fetch and a prefetch the invariant asks R31 only. -/
theorem State.Inv.withLine (h : s.Inv) {l : CacheLine} {n : Nat}
    (hline : State.LineOk { s with cl := l, lat := n }) : State.Inv { s with cl := l, lat := n } :=
  ⟨h.memWf, h.memBelow, hline, h.record, h.halted⟩

theorem State.Inv.delay (h : s.Inv) (n : Nat) : (s.delay n).Inv :=
  h.withLine h.line

theorem Fetched.inv (h : Fetched s w u) (hinv : s.Inv) : u.Inv := by
  have hline := h.lineOk hinv.line
  obtain ⟨l, n, rfl⟩ := h.frame
  exact hinv.withLine hline

theorem State.Inv.halt (h : s.Inv) (hrun : s.run = .running) (hpc : s.pc = -1) : s.halt.Inv :=
  ⟨h.memWf, h.memBelow, h.line, by simp [h.code_of_running hrun], fun _ => hpc⟩

theorem State.Inv.raise (h : s.Inv) (e : FatalError) (op? : Option Opcode) : (s.raise e op?).Inv :=
  ⟨h.memWf, h.memBelow, h.line, by simp [e.code_ne_none], by simp⟩

theorem State.Inv.commit (h : s.Inv) (hrun : s.run = .running) (a p : Word) : (s.commit a p).Inv :=
  ⟨h.memWf, h.memBelow, h.line, h.record, by simp [hrun]⟩

/-- SAV's write stays within `MEMSIZE` and in canonical form; ADR and the others leave what the invariant
speaks of. -/
theorem SideEffect.inv (h : SideEffect i s u) (hinv : s.Inv) : u.Inv := by
  rcases h with ⟨k, y, -, -, hb, rfl⟩ | ⟨_, _, rfl⟩ | ⟨_, _, rfl⟩
  · obtain ⟨h₀, h₁⟩ := (inBounds_iff ..).1 hb
    have hlt : y.toNat < s.cfg.memSize := by rw [toNat_of_nonneg h₀]; omega
    exact ⟨Memory.wf_write hinv.memWf _ _, Memory.below_write hinv.memBelow hlt _, hinv.line, hinv.record,
      hinv.halted⟩
  · exact ⟨hinv.memWf, hinv.memBelow, hinv.line, hinv.record, hinv.halted⟩
  · exact hinv

/-- Settles O36: the halt check, the fetch, the raising of an error, the effect of an instruction and its
post-processing each keep the invariant. -/
theorem stepKeepsTheInvariant : Obligations.StepKeepsTheInvariant := by
  intro s t hinv hstep
  cases stepped_of_step hstep with
  | halt hrun hpc => exact hinv.halt hrun hpc
  | boundsError => exact ((hinv.delay _).delay _).raise _ _
  | unknownOpcode _ hfetch | raised _ hfetch => exact (hfetch.inv hinv).raise _ _
  | completed hpass hfetch _ _ hv =>
    have hrun := hpass.1
    have hinv' := hv.inv (hfetch.inv hinv)
    obtain ⟨l, n, rfl⟩ := hfetch.frame
    exact hinv'.commit (by rw [hv.run_eq, hrun]) _ _

theorem inv_resetWith (cfg : Params) (prog : List InsnWord) : (State.resetWith cfg prog).Inv :=
  ⟨rfl, rfl, by simp [State.resetWith], by simp [State.resetWith], by simp [State.resetWith]⟩

/-- Settles O37: a reset leaves an empty memory, an EMPTY line, no error and RUNNING; the model's own counter,
which a host reset keeps, is no part of the invariant. -/
theorem resetMeetsTheInvariant : Obligations.ResetMeetsTheInvariant := by
  refine ⟨inv_resetWith _ _, inv_resetWith, fun s => ?_⟩
  obtain ⟨hwf, hbelow, hline, hrecord, hhalted⟩ := inv_resetWith s.cfg s.prog
  exact ⟨hwf, hbelow, hline, hrecord, hhalted⟩

end Sys2Proof.Machine
end

section
/-! PROOFS. The steps that fetch nothing (spec/40_execution_cycle.md R100, R101, spec/00_scope.md R6): an equation
for each way of not passing the halt check. -/

namespace Sys2Proof.Machine

variable {s : State}

theorem step_of_halted (h : s.run = .halted) : step s = .fault .noStepHalted := by
  simp only [step, h]

theorem step_of_faulted (h : s.run = .faulted) : step s = .fault .noStepFaulted := by
  simp only [step, h]

theorem step_of_illegal (hrun : s.run = .running) (hc : configLegal s = false) :
    step s = .refused .illegalConfiguration := by
  simp only [step, hrun, hc, Bool.false_eq_true, if_false]

theorem step_of_minus_one (hrun : s.run = .running) (hc : configLegal s = true) (hpc : s.pc = -1) :
    step s = .next s.halt := by
  simp only [step, hrun, hc, wrap_neg_one, if_pos hpc, if_true]

/-- R6, the bounds as numbers (D17, D23). -/
theorem configLegal_iff (s : State) : configLegal s = true ↔
    1 ≤ s.cfg.memSize ∧ s.cfg.memSize ≤ 2 ^ 31 ∧ s.prog.length ≤ 2 ^ 31 - 1 := by
  simp only [configLegal, Params.wf, progLenOk, Bool.and_eq_true, decide_eq_true_eq, and_assoc]
  rfl

/-- Settles O18: an instruction raised or completed, and both are next states. -/
theorem everyInstructionAnswersANextState : Obligations.EveryInstructionAnswersANextState := by
  intro i s
  rcases exec_cases i s with ⟨e, -, h⟩ | ⟨y, u, a, p, -, -, -, h⟩ <;> exact ⟨_, h⟩

theorem step_answers_of_legal (hrun : s.run = .running) (hc : configLegal s = true) : ∃ t, step s = .next t := by
  by_cases hpc : s.pc = -1
  · exact ⟨_, step_of_minus_one hrun hc hpc⟩
  · rw [step_of_passes ⟨hrun, hc, hpc⟩]
    rcases cycle_cases s with ⟨s', -, h⟩ | ⟨w, s', -, h⟩ <;> rw [h]
    · exact ⟨_, rfl⟩
    · rcases dispatch_cases w (prefetchIfEnabled s') with ⟨i, -, hd⟩ | ⟨op, -, hd⟩ <;> rw [hd]
      · exact everyInstructionAnswersANextState i _
      · exact ⟨_, rfl⟩

/-- Settles O22: a legal configuration is answered with a next state, an illegal one is refused by name. -/
theorem onlyIllegalConfigurationsAreRefused : Obligations.OnlyIllegalConfigurationsAreRefused := by
  intro s hrun
  rw [← configLegal_iff]
  cases hc : configLegal s with
  | true =>
    obtain ⟨t, ht⟩ := step_answers_of_legal hrun hc
    simp [ht]
  | false => simp [step_of_illegal hrun hc]

/-- Settles O20. -/
theorem haltCheckEndsTheRun : Obligations.HaltCheckEndsTheRun :=
  fun _ hrun hc hpc => step_of_minus_one hrun hc hpc

/-- Settles O21. -/
theorem noStepAfterTheEndOfARun : Obligations.NoStepAfterTheEndOfARun :=
  fun _ => ⟨step_of_halted, step_of_faulted⟩

end Sys2Proof.Machine
end

section
/-! PROOFS. The architecture of a state (spec/48_fetch_prefetch.md R217, R223): the state without its line, its
latency total, the latencies and PREFETCH_EN. Every instruction reads and writes the architecture only, so it
commutes with that projection, and answers agree exactly where their projections are equal. -/

namespace Sys2Proof.Machine

/-! ## The projection -/

/-- The parameters an instruction can read: `MEMSIZE`. -/
def Params.arch (p : Params) : Params :=
  ⟨p.memSize, false, 0, 0, 0⟩

/-- The state with what `SameArchitecture` does not speak of set to fixed values. -/
def State.arch (s : State) : State :=
  { s with cl := ⟨false, 0, 0⟩, lat := 0, cfg := Params.arch s.cfg }

/-- The projection of an answer; a stop has no state. -/
def archAnswer : StepResult → StepResult
  | .next s => .next s.arch
  | .fault r => .fault r
  | .refused r => .refused r

theorem arch_eq_iff (s t : State) : s.arch = t.arch ↔ SameArchitecture s t := by
  simp only [State.arch, Params.arch, State.mk.injEq, Params.mk.injEq, SameArchitecture]
  tauto

theorem archAnswer_eq_iff (a b : StepResult) : archAnswer a = archAnswer b ↔ SameAnswer a b := by
  cases a <;> cases b <;> simp [archAnswer, SameAnswer, arch_eq_iff]

/-! ## The instructions -/

theorem withOperand_arch {op : Opcode} {k : Word} {s : State} {arm arm' : Word → StepResult}
    (h : ∀ y, arm' y = archAnswer (arm y)) :
    withOperand op k s.arch arm' = archAnswer (withOperand op k s arm) := by
  have hresolve : resolve k s.arch = resolve k s := rfl
  unfold withOperand
  rw [hresolve]
  cases resolve k s with
  | ok y => exact h y
  | error e => rfl

theorem exec_arch (i : Instr) (s : State) : exec i s.arch = archAnswer (exec i s) := by
  cases i with
  | div k =>
    refine withOperand_arch fun y => ?_
    rw [apply_ite archAnswer]
    rfl
  | sav k =>
    refine withOperand_arch fun y => ?_
    cases hb : inBounds y s.cfg.memSize with
    | true =>
      rw [memWrite_ok hb, memWrite_ok (s := s.arch) hb]
      rfl
    | false =>
      rw [memWrite_error hb, memWrite_error (s := s.arch) hb]
      rfl
  | lod k =>
    refine withOperand_arch fun y => ?_
    have hread : memRead y s.arch = memRead y s := rfl
    rw [hread]
    cases memRead y s <;> rfl
  | nop k | mov k | add k | sub k | mul k | and k | or k | not k | band k | bor k | bxor k | rotl k | rotr k
  | bnot k | jmp k | jpz k | jpn k | hlt k | adr k => exact withOperand_arch fun y => rfl

theorem dispatch_arch (w : InsnWord) (s : State) : dispatch w s.arch = archAnswer (dispatch w s) := by
  unfold dispatch
  cases decode w with
  | ok i => exact exec_arch i s
  | error e => cases e with
    | unknownOpcode op => rfl

/-! ## The plain-fetch machine -/

/-- Where a step does not pass the halt check it does not fetch, and R223's machine is the machine itself. -/
theorem archStep_of_not_passes {s : State} (h : ¬PassesHaltCheck s) : archStep s = step s := by
  unfold archStep
  rcases step_cases s with ⟨hr, hs⟩ | ⟨hr, hs⟩ | ⟨hr, hc, hs⟩ | ⟨hr, hc, hp, hs⟩ | ⟨hpass, -⟩
  · rw [hs, hr]
  · rw [hs, hr]
  · rw [hs, hr, hc]
    rfl
  · rw [hs, hr, hc, hp]
    rfl
  · exact absurd hpass h

theorem archStep_of_passes {s : State} (h : PassesHaltCheck s) :
    (∀ e, progRead s.pc s.prog = .error e → archStep s = .next (s.raise e none)) ∧
      (∀ w, progRead s.pc s.prog = .ok w → archStep s = dispatch w s) := by
  obtain ⟨hr, hc, hp⟩ := h
  refine ⟨fun e he => ?_, fun w hw => ?_⟩
  · simp only [archStep, hr, hc, if_true, if_neg hp, he]
  · simp only [archStep, hr, hc, if_true, if_neg hp, hw]

/-- R223's machine reads and writes the architecture only. -/
theorem archStep_arch (s : State) : archStep s.arch = archAnswer (archStep s) := by
  by_cases hpass : PassesHaltCheck s
  · obtain ⟨herror, hok⟩ := archStep_of_passes hpass
    obtain ⟨herror', hok'⟩ := archStep_of_passes (s := s.arch) hpass
    rcases progRead_cases s.pc s.prog with ⟨w, hw, -⟩ | ⟨he, -⟩
    · rw [hok w hw, hok' w hw, dispatch_arch]
    · rw [herror _ he, herror' _ he]
      rfl
  · rw [archStep_of_not_passes hpass, archStep_of_not_passes (s := s.arch) hpass]
    rcases step_cases s with ⟨hr, hs⟩ | ⟨hr, hs⟩ | ⟨hr, hc, hs⟩ | ⟨hr, hc, hp, hs⟩ | ⟨h, -⟩
    · rw [hs, step_of_halted (s := s.arch) hr]
      rfl
    · rw [hs, step_of_faulted (s := s.arch) hr]
      rfl
    · rw [hs, step_of_illegal (s := s.arch) hr hc]
      rfl
    · rw [hs, step_of_minus_one (s := s.arch) hr hc hp]
      rfl
    · exact absurd h hpass

/-- R217: with R31 the step and R223's machine have equal projections. -/
theorem archAnswer_step {s : State} (hline : s.LineOk) : archAnswer (step s) = archAnswer (archStep s) := by
  by_cases hpass : PassesHaltCheck s
  · obtain ⟨herror, hok⟩ := archStep_of_passes hpass
    have hread := fetch_returns hline
    rw [step_of_passes hpass]
    rcases cycle_cases s with ⟨s', hfetch, hc⟩ | ⟨w, s', hfetch, hc⟩ <;> rw [hfetch] at hread <;> rw [hc]
    · obtain ⟨l, n, hframe⟩ := fetch_frame s
      rw [hfetch] at hframe
      obtain rfl : s' = _ := hframe
      rw [herror _ hread.symm]
      rfl
    · obtain ⟨l, n, hframe⟩ := fetched_frame hfetch
      rw [hok w hread.symm, hframe, ← dispatch_arch, ← dispatch_arch]
      rfl
  · rw [archStep_of_not_passes hpass]

/-- Settles O35, by `archAnswer_step`. -/
theorem stepRefinesThePlainFetchMachine : Obligations.StepRefinesThePlainFetchMachine :=
  fun _ hinv => (archAnswer_eq_iff _ _).1 (archAnswer_step hinv.line)

/-! ## Two machines with one architecture -/

/-- Both machines step as R223's machine does on the projection they share. -/
theorem sameAnswer_step {s t : State} (hs : s.Inv) (ht : t.Inv) (h : SameArchitecture s t) :
    SameAnswer (step s) (step t) := by
  rw [← archAnswer_eq_iff]
  calc archAnswer (step s) = archStep s.arch := by rw [archAnswer_step hs.line, archStep_arch]
    _ = archStep t.arch := by rw [(arch_eq_iff s t).2 h]
    _ = archAnswer (step t) := by rw [archAnswer_step ht.line, archStep_arch]

theorem sameAnswer_run (n : Nat) {s t : State} (hs : s.Inv) (ht : t.Inv) (h : SameArchitecture s t) :
    SameAnswer (Host.Core.run Sys2Proof.core n s) (Host.Core.run Sys2Proof.core n t) := by
  induction n generalizing s t with
  | zero => exact h
  | succ n ih =>
    have hstep := sameAnswer_step hs ht h
    cases hs' : step s <;> cases ht' : step t <;> rw [hs', ht'] at hstep
    case next.next u v =>
      rw [run_of_next hs', run_of_next ht']
      exact ih (stepKeepsTheInvariant s u hs hs') (stepKeepsTheInvariant t v ht ht') hstep
    case fault.fault =>
      rw [run_of_fault hs', run_of_fault ht']
      exact hstep
    case refused.refused =>
      rw [run_of_refused hs', run_of_refused ht']
      exact hstep
    all_goals exact hstep.elim

/-- Settles O34, by induction on the number of steps; two resets that differ in PREFETCH_EN alone meet the
invariant and share their architecture. -/
theorem prefetchNeverChangesResults : Obligations.PrefetchNeverChangesResults :=
  ⟨fun n _ _ hs ht h => sameAnswer_run n hs ht h, fun n _ _ =>
    sameAnswer_run n (inv_resetWith _ _) (inv_resetWith _ _) ⟨rfl, rfl, rfl, rfl, rfl, rfl, rfl, rfl, rfl⟩⟩

end Sys2Proof.Machine
end

section
/-! PROOFS. ADD, SUB, MUL, DIV (spec/42_arithmetic.md): the wrapped result is the operation on words, and it is the
exact result wherever that fits. -/

namespace Sys2Proof.Machine

variable {s : State} {k y : Word}

/-! ## The instructions, their operand resolved -/

theorem exec_add_of_operand (h : OperandIs s k y) :
    exec (.add k) s = .next { s with acc := s.acc + y, pc := s.pc + 1 } := by
  rw [← wrap_add]
  exact (withOperand_ok h).trans (finish_eq _ s.pc s)

theorem exec_sub_of_operand (h : OperandIs s k y) :
    exec (.sub k) s = .next { s with acc := s.acc - y, pc := s.pc + 1 } := by
  rw [← wrap_sub]
  exact (withOperand_ok h).trans (finish_eq _ s.pc s)

theorem exec_mul_of_operand (h : OperandIs s k y) :
    exec (.mul k) s = .next { s with acc := s.acc * y, pc := s.pc + 1 } := by
  rw [← wrap_mul]
  exact (withOperand_ok h).trans (finish_eq _ s.pc s)

/-- R134, its operand not 0. -/
theorem exec_div_of_operand (h : OperandIs s k y) (hy : y ≠ 0) :
    exec (.div k) s = .next { s with acc := wrap (s.acc.toInt.tdiv y.toInt), pc := s.pc + 1 } := by
  have harm : exec (.div k) s = _ := withOperand_ok h
  rw [harm, if_neg (mt toInt_eq_zero.1 hy), tdiv_eq]
  exact finish_eq _ s.pc s

/-! ## The quotient -/

/-- The one quotient of two words that is no word is `-2^31 / -1`: a divisor from 2 on halves the dividend at
least. -/
theorem tdiv_fits {a y : Word} (h : ¬(a.toInt = -(2 ^ 31) ∧ y.toInt = -1)) :
    -(2 ^ 31) ≤ a.toInt.tdiv y.toInt ∧ a.toInt.tdiv y.toInt < 2 ^ 31 := by
  have hlow : -(2 ^ 31) ≤ a.toInt := a.le_toInt
  have hhigh : a.toInt < 2 ^ 31 := a.toInt_lt
  have hy : y.toInt = -1 ∨ y.toInt = 0 ∨ y.toInt = 1 ∨ 2 ≤ y.toInt.natAbs := by omega
  rcases hy with hy | hy | hy | hy
  · rw [hy, Int.tdiv_neg, Int.tdiv_one]
    omega
  · rw [hy, Int.tdiv_zero]
    omega
  · rw [hy, Int.tdiv_one]
    omega
  · have habs : (a.toInt.tdiv y.toInt).natAbs ≤ a.toInt.natAbs / 2 := by
      rw [Int.natAbs_tdiv]
      exact Nat.div_le_div_left hy two_pos
    omega

/-- The quotient that is no word wraps to the dividend (D2). -/
theorem wrap_tdiv_min : wrap ((-(2 ^ 31) : Int).tdiv (-1)) = wrap (-(2 ^ 31)) := by decide

/-- Settles O3: the operation on words is the exact one wrapped, and a result that fits is not changed by
wrapping. -/
theorem addSubMulWrap : Obligations.AddSubMulWrap := by
  intro s k y h
  refine ⟨exec_add_of_operand h, exec_sub_of_operand h, exec_mul_of_operand h, fun h₁ h₂ => ?add,
    fun h₁ h₂ => ?sub, fun h₁ h₂ => ?mul⟩
  case add => rw [← wrap_add, toInt_wrap_of_fits h₁ h₂]
  case sub => rw [← wrap_sub, toInt_wrap_of_fits h₁ h₂]
  case mul => rw [← wrap_mul, toInt_wrap_of_fits h₁ h₂]

/-- Settles O4: the quotient fits but for `-2^31 / -1`, which wraps to `-2^31`. -/
theorem divRoundsTowardZero : Obligations.DivRoundsTowardZero := by
  intro s k y h hy
  refine ⟨_, exec_div_of_operand h hy, ?_⟩
  split
  case isTrue hmin =>
    obtain ⟨ha, hy'⟩ := hmin
    rw [ha, hy', wrap_tdiv_min, ← ha, wrap_toInt]
  case isFalse hfits => exact toInt_wrap_of_fits (tdiv_fits hfits).1 (tdiv_fits hfits).2

end Sys2Proof.Machine
end

section
/-! PROOFS. ROTL and ROTR (spec/44_bitwise_rotate.md): where each bit of a rotation comes from. -/

namespace Sys2Proof.Machine

variable {s : State} {k y : Word}

theorem exec_rotl_of_operand (h : OperandIs s k y) :
    exec (.rotl k) s = .next { s with acc := rotateLeft s.acc y, pc := s.pc + 1 } :=
  (withOperand_ok h).trans (finish_eq _ s.pc s)

theorem exec_rotr_of_operand (h : OperandIs s k y) :
    exec (.rotr k) s = .next { s with acc := rotateRight s.acc y, pc := s.pc + 1 } :=
  (withOperand_ok h).trans (finish_eq _ s.pc s)

theorem getLsbD_rotateLeft (a y : Word) {n : Nat} (hn : n < 32) :
    (rotateLeft a y).getLsbD n = a.getLsbD (((n : Int) - y.toInt) % 32).toNat := by
  have hr := rotateCount_lt y
  rw [rotateLeft_eq, BitVec.getLsbD_rotateLeft_of_le hr, Bool.cond_decide]
  unfold rotateCount at hr ⊢
  simp only [hn, decide_true, Bool.true_and]
  split <;> congr 1 <;> omega

theorem getLsbD_rotateRight (a y : Word) {n : Nat} (hn : n < 32) :
    (rotateRight a y).getLsbD n = a.getLsbD (((n : Int) + y.toInt) % 32).toNat := by
  have hr := rotateCount_lt y
  rw [rotateRight_eq, BitVec.getLsbD_rotateRight_of_lt hr, Bool.cond_decide]
  unfold rotateCount at hr ⊢
  simp only [hn, decide_true, Bool.true_and]
  split <;> congr 1 <;> omega

/-- The negated count is the opposite one modulo 32, also at `-2^31`, whose negation wraps. -/
theorem toInt_neg_emod (y : Word) : (-y).toInt % 32 = -y.toInt % 32 := by
  rw [BitVec.toInt_neg, Int.bmod_def]
  omega

theorem rotateRight_eq_rotateLeft_neg (a y : Word) : rotateRight a y = rotateLeft a (-y) := by
  apply BitVec.eq_of_getLsbD_eq
  intro n hn
  have hneg := toInt_neg_emod y
  rw [getLsbD_rotateLeft a (-y) hn, getLsbD_rotateRight a y hn]
  congr 1
  omega

/-- Settles O8, bit by bit. -/
theorem rotatesMoveEveryBit : Obligations.RotatesMoveEveryBit :=
  fun s _ y h => ⟨⟨_, exec_rotl_of_operand h, fun _ hn => getLsbD_rotateLeft s.acc y hn⟩,
    ⟨_, exec_rotr_of_operand h, fun _ hn => getLsbD_rotateRight s.acc y hn⟩⟩

/-- Settles O9: both instructions commit the same word. -/
theorem rotrIsRotlOfNegatedCount : Obligations.RotrIsRotlOfNegatedCount := by
  intro s k k' y hk hk'
  refine ⟨_, exec_rotr_of_operand hk, ?_⟩
  rw [exec_rotl_of_operand hk', rotateRight_eq_rotateLeft_neg]

end Sys2Proof.Machine
end

section
/-! PROOFS. HLT (spec/47_system.md) and what all the instructions share: the operand they resolve first
(spec/40_execution_cycle.md section 3) and the frames of spec/10_state.md. -/

namespace Sys2Proof.Machine

variable {s t : State} {k y : Word} {i : Instr}

theorem exec_hlt_of_operand (h : OperandIs s k y) : exec (.hlt k) s = .next { s with pc := -1 } := by
  have harm : exec (.hlt k) s = _ := withOperand_ok h
  have htarget : wrap (-2) + 1 = -1 := by decide
  rw [harm, finish_eq, htarget]

/-- Settles O13: HLT writes the sentinel, and the step that sees it is the halt check's. -/
theorem hltEndsTheRunInOneMoreStep : Obligations.HltEndsTheRunInOneMoreStep := by
  refine ⟨fun _ _ _ h => exec_hlt_of_operand h, fun s k y t h hrun hc hexec => ?_,
    raisesUnresolved_of_operand fun _ => rfl⟩
  obtain rfl : { s with pc := -1 } = t := Host.Outcome.next.inj ((exec_hlt_of_operand h).symm.trans hexec)
  exact step_of_minus_one hrun hc rfl

/-- Settles O15: every instruction stands in the frame that resolves its operand. -/
theorem unresolvedOperandRaisesInEveryInstruction :
    Obligations.UnresolvedOperandRaisesInEveryInstruction :=
  fun _ s h => ⟨_, exec_of_operandFails h, raisedIn_raise s _ _, rfl, rfl⟩

/-- An instruction whose arm ends with the accumulator it began with keeps it, raised or not. -/
theorem acc_eq_of_withOperand {op : Opcode} {arm : Word → StepResult}
    (harm : ∀ y, ∃ p u, arm y = finish s.acc p u) (h : withOperand op k s arm = .next t) : t.acc = s.acc := by
  rcases withOperand_cases op k s arm with ⟨-, hraise⟩ | ⟨y, -, hok⟩
  · obtain rfl := Host.Outcome.next.inj (hraise.symm.trans h)
    rfl
  · obtain ⟨p, u, hfinish⟩ := harm y
    obtain rfl := Host.Outcome.next.inj ((hok.trans hfinish).symm.trans h)
    rfl

/-- What an arm other than SAV's does before its post-processing writes the mode only, and only in ADR. -/
theorem SideEffect.frame_of_ne_sav {u : State} (h : SideEffect i s u) (hsav : ∀ k, i ≠ .sav k) :
    ∃ b, u = { s with ind := b } ∧ ((∀ k, i ≠ .adr k) → b = s.ind) := by
  rcases h with ⟨k, _, hi, _⟩ | ⟨k, hi, rfl⟩ | ⟨_, _, rfl⟩
  · exact absurd hi (hsav k)
  · exact ⟨_, rfl, fun hadr => absurd hi (hadr k)⟩
  · exact ⟨_, rfl, fun _ => rfl⟩

/-- Settles O16: an instruction that raised changed nothing the frame names; one that completed wrote the mode
only in ADR, and each instruction the table lists commits the accumulator it began with. -/
theorem frameOfInstructionsThatStoreNothing : Obligations.FrameOfInstructionsThatStoreNothing := by
  intro i s t hsav hexec
  rcases exec_next_cases hexec with ⟨e, -, rfl⟩ | ⟨y, u, a, -, hu, rfl⟩
  · exact ⟨fun _ => rfl, rfl, fun _ => rfl, fun _ => rfl, rfl, rfl, rfl, rfl, .inr ⟨_, raisedIn_raise s _ _⟩⟩
  · obtain ⟨b, rfl, hb⟩ := hu.frame_of_ne_sav hsav
    refine ⟨fun _ => rfl, rfl, hb, fun ⟨k, hi⟩ => ?acc, rfl, rfl, rfl, rfl, .inl ⟨rfl, rfl⟩⟩
    case acc =>
      rcases hi with rfl | rfl | rfl | rfl | rfl | rfl <;>
        exact acc_eq_of_withOperand (fun _ => ⟨_, _, rfl⟩) hexec

/-- Settles O17: SAV raised and changed nothing, or it wrote the one cell at its resolved operand. -/
theorem frameOfSav : Obligations.FrameOfSav := by
  intro k s t hexec
  rcases exec_next_cases hexec with ⟨e, -, rfl⟩ | ⟨_, u, _, -, hu, -⟩
  · exact ⟨fun _ _ _ _ => rfl, fun _ _ _ => rfl, rfl, rfl, rfl, rfl, rfl, rfl, .inr ⟨_, raisedIn_raise s _ _⟩⟩
  · rcases hu with ⟨k', y, hk, hy, hb, -⟩ | ⟨_, hadr, -⟩ | ⟨hsav, -, -⟩
    · cases hk
      obtain ⟨h₀, h₁⟩ := (inBounds_iff ..).1 hb
      have hres := resolve_ok hy
      obtain rfl := Host.Outcome.next.inj ((exec_sav_of_operand hy h₀ h₁).symm.trans hexec)
      refine ⟨fun y' hy' c hc => ?cell, fun e he => ?noError, rfl, rfl, rfl, rfl, rfl, rfl, .inl ⟨rfl, rfl⟩⟩
      case cell =>
        obtain rfl : y = y' := by simpa [hres] using hy'
        exact Memory.read_write_other s.mem s.acc (by rwa [← toNat_of_nonneg h₀])
      case noError => simp [hres] at he
    · cases hadr
    · exact absurd rfl (hsav k)

end Sys2Proof.Machine
end

section
/-! PROOFS. The Fetch/Prefetch Unit in a step (spec/48_fetch_prefetch.md): what the line and the latency total are
after the fetch and the prefetch of a step, and what the step then runs. -/

namespace Sys2Proof.Machine

variable {s u t : State} {w : InsnWord} {i : Instr}

/-! ## The fetch and the prefetch of a step that fetches a word -/

/-- R216: with R31 the fetch succeeds wherever the program holds a word, hit or miss. -/
theorem fetch_of_wordAt (hline : s.LineOk) (hw : WordAt s s.pc w) :
    fetch s = (.ok w, { s with
      cl := ⟨true, s.pc, w⟩
      lat := s.lat + s.cfg.fetchTime + (if Hits s then 0 else s.cfg.missPenalty) }) := by
  have hread := fetch_returns hline
  rw [progRead_of_wordAt hw] at hread
  have hfetch : fetch s = (.ok w, (fetch s).2) := by rw [← hread]
  rw [hfetch, (fetch_ok_eq hfetch).2]

theorem not_hits_of_outsideProgram (hline : s.LineOk) (hout : OutsideProgram s s.pc) : ¬Hits s := by
  rintro ⟨hvalid, htag⟩
  obtain ⟨h₀, hinsn⟩ := hline hvalid
  rw [htag] at h₀ hinsn
  exact not_outsideProgram_of_wordAt ⟨h₀, by rwa [← toNat_of_nonneg h₀]⟩ hout

/-- R215: the look-ahead address of an address of the program is one, too. -/
theorem wordAt_lookAhead (hc : configLegal s = true) (hw : WordAt s s.pc w) :
    (lookAhead s.pc s.prog.length).toInt = min (s.pc.toInt + 1) ((s.prog.length : Int) - 1) ∧
      ∃ v, WordAt s (lookAhead s.pc s.prog.length) v := by
  obtain ⟨-, -, hlen⟩ := (configLegal_iff s).1 hc
  have hin := not_outsideProgram_of_wordAt hw
  simp only [OutsideProgram] at hin
  have hla := toInt_lookAhead (pc := s.pc) (n := s.prog.length) (by omega) (by omega) (decide_eq_true hlen)
  have hlt : (lookAhead s.pc s.prog.length).toInt.toNat < s.prog.length := by omega
  exact ⟨hla, _, by omega, List.getElem?_eq_getElem hlt⟩

/-- Settles O30: the look-ahead address is in the program, so the prefetch's read succeeds. -/
theorem prefetchLoadsTheNextWord : Obligations.PrefetchLoadsTheNextWord := by
  intro s w hc hw
  refine ⟨fun hen => ?_, fun hen => ?_⟩
  · obtain ⟨hla, v, hv⟩ := wordAt_lookAhead hc hw
    refine ⟨_, v, hla, hv, ?_⟩
    rw [prefetchIfEnabled, if_pos hen, prefetch, progRead_of_wordAt hv]
    rfl
  · rw [prefetchIfEnabled, hen]
    rfl

/-! ## What a step runs -/

theorem step_of_fetch {s' : State} (hpass : PassesHaltCheck s) (hfetch : fetch s = (.ok w, s')) :
    step s = dispatch w (prefetchIfEnabled s') := by
  rw [step_of_passes hpass, cycle, hfetch]

theorem dispatch_of_decode (hdec : decode w = .ok i) : dispatch w s = exec i s := by
  rw [dispatch, hdec]

/-- Settles O23: the fetch gives the program's word, hit or miss, and the prefetch the word at the look-ahead
address. -/
theorem stepRunsTheDecodedInstruction : Obligations.StepRunsTheDecodedInstruction := by
  intro s w i hinv hpass hw hdec
  have hfetch := fetch_of_wordAt hinv.line hw
  rw [step_of_fetch hpass hfetch, dispatch_of_decode hdec]
  obtain ⟨hon, hoff⟩ := prefetchLoadsTheNextWord { s with cl := ⟨true, s.pc, w⟩, lat := _ } w hpass.2.1 hw
  refine ⟨fun hen => by rw [hoff hen], fun hen => ?_⟩
  obtain ⟨la, v, hla, hv, hprefetch⟩ := hon hen
  exact ⟨la, v, hla, hv, by rw [hprefetch]⟩

/-- With or without the prefetch, a step dispatches the program's word at `pc`. -/
theorem step_of_wordAt (hline : s.LineOk) (hpass : PassesHaltCheck s) (hw : WordAt s s.pc w) :
    ∃ l n, step s = dispatch w { s with cl := l, lat := n } := by
  have hfetch := fetch_of_wordAt hline hw
  obtain ⟨l, n, hframe⟩ := fetched_frame hfetch
  exact ⟨l, n, by rw [step_of_fetch hpass hfetch, hframe]⟩

/-- Settles O24: the word is fetched, and dispatch rejects it before it looks at the operand. -/
theorem unknownOpcodeIsRaisedAtDispatch : Obligations.UnknownOpcodeIsRaisedAtDispatch := by
  intro s w hinv hpass hw hge
  obtain ⟨l, n, hstep⟩ := step_of_wordAt hinv.line hpass hw
  rw [dispatch, decode_of_opcode_ge hge] at hstep
  exact ⟨_, l, n, hstep, raisedIn_raise _ _ _, rfl⟩

/-- Settles O25: a valid line is tagged with an address of the program, so the fetch misses and its read
fails. -/
theorem fetchOutsideTheProgramRaises : Obligations.FetchOutsideTheProgramRaises := by
  intro s hinv hpass hout
  have hfetch := fetch_of_miss_outsideProgram (not_hits_of_outsideProgram hinv.line hout) hout
  have hstep : step s = _ := step_of_passes hpass
  rw [cycle, hfetch] at hstep
  exact ⟨_, hstep, raisedIn_raise _ _ _, rfl⟩

/-- Settles O51: the reset state meets the invariant and starts at address 0. -/
theorem firstStepFetchesAddressZero : Obligations.FirstStepFetchesAddressZero := by
  intro cfg prog hc
  have hinv := inv_resetWith cfg prog
  have hpass : PassesHaltCheck (State.resetWith cfg prog) := ⟨rfl, hc, (by decide : (0 : Word) ≠ -1)⟩
  refine ⟨fun w i hw hdec => ?word, fun hempty => ?empty⟩
  case word =>
    obtain ⟨l, n, hstep⟩ := step_of_wordAt hinv.line hpass ⟨le_refl _, hw⟩
    exact ⟨l, n, by rw [hstep, dispatch_of_decode hdec]⟩
  case empty =>
    subst hempty
    obtain ⟨t, hstep, ⟨hrun, hcode, hpc, -⟩, haddr⟩ :=
      fetchOutsideTheProgramRaises _ hinv hpass (.inr (le_refl _))
    exact ⟨t, hstep, hrun, hcode, hpc, haddr⟩

/-! ## The next fetch -/

/-- The line that the fetch and the prefetch of a step leave. -/
theorem Fetched.cl_eq (h : Fetched s w u) (hline : s.LineOk) (hc : configLegal s = true) :
    (s.cfg.prefetchEn = true →
      ∃ la v, la.toInt = min (s.pc.toInt + 1) ((s.prog.length : Int) - 1) ∧ u.cl = ⟨true, la, v⟩) ∧
      (s.cfg.prefetchEn = false → u.cl = ⟨true, s.pc, w⟩) := by
  have hw := h.wordAt hline
  obtain ⟨s', hfetch, rfl⟩ := h
  obtain ⟨-, rfl⟩ := fetch_ok_eq hfetch
  obtain ⟨hon, hoff⟩ := prefetchLoadsTheNextWord { s with cl := ⟨true, s.pc, w⟩, lat := _ } w hc hw
  refine ⟨fun hen => ?_, fun hen => by rw [hoff hen]⟩
  obtain ⟨la, v, hla, -, hprefetch⟩ := hon hen
  exact ⟨la, v, hla, by rw [hprefetch]⟩

theorem Stepped.cl_of_running (h : Stepped s t) (hrunning : t.run = .running) :
    ∃ w u, Fetched s w u ∧ t.cl = u.cl := by
  cases h with
  | halt | boundsError | unknownOpcode | raised => simp at hrunning
  | completed _ hfetch _ _ hv =>
    obtain ⟨m, b, rfl⟩ := hv.frame
    exact ⟨_, _, hfetch, rfl⟩

/-- Settles O31: an instruction that completes keeps the line, whose tag the new `pc` must equal. -/
theorem whenTheNextFetchHits : Obligations.WhenTheNextFetchHits := by
  intro s t hinv hpass hstep hrunning
  obtain ⟨w, u, hfetch, hcl⟩ := (stepped_of_step hstep).cl_of_running hrunning
  obtain ⟨hon, hoff⟩ := hfetch.cl_eq hinv.line hpass.2.1
  refine ⟨fun hen => ?_, fun hen => ?_⟩
  · obtain ⟨la, v, hla, hu⟩ := hon hen
    rw [Hits, hcl, hu, ← hla, BitVec.toInt_inj]
    simp [eq_comm]
  · rw [Hits, hcl, hoff hen]
    simp [eq_comm]

end Sys2Proof.Machine
end

section
/-! PROOFS. The latency total (spec/48_fetch_prefetch.md section 4): what a step adds, and the sum over a run. -/

namespace Sys2Proof.Machine

variable {s u t : State} {w : InsnWord}

/-! ## One step -/

theorem stepCounts_of_not_passes (h : ¬PassesHaltCheck s) : stepCounts s = ⟨0, 0, 0⟩ :=
  if_neg h

theorem stepCounts_of_fetchFails (hpass : PassesHaltCheck s) (hmiss : ¬Hits s) (hout : OutsideProgram s s.pc) :
    stepCounts s = ⟨1, 1, 0⟩ := by
  have hfail : ¬(s.cfg.prefetchEn = true ∧ (Hits s ∨ ¬OutsideProgram s s.pc)) :=
    fun h => h.2.elim hmiss (· hout)
  rw [stepCounts, if_pos hpass, if_neg hmiss, if_neg hfail]

theorem stepCounts_of_fetched (hpass : PassesHaltCheck s) (hfetch : Fetched s w u) :
    stepCounts s = ⟨1, if Hits s then 0 else 1, if s.cfg.prefetchEn = true then 1 else 0⟩ := by
  have hcond := and_iff_left (a := s.cfg.prefetchEn = true) hfetch.hits_or_inProgram
  rw [stepCounts, if_pos hpass]
  simp only [hcond]

/-- R221 in terms of the counts of R222. -/
abbrev Counts.latency (c : Counts) (cfg : Params) : Nat :=
  c.fetches * cfg.fetchTime + c.misses * cfg.missPenalty + c.prefetches * cfg.prefetchTime

theorem Fetched.lat_eq_stepCounts (h : Fetched s w u) (hpass : PassesHaltCheck s) :
    u.lat = s.lat + (stepCounts s).latency s.cfg := by
  rw [h.lat_eq, stepCounts_of_fetched hpass h]
  simp only [Counts.latency, one_mul, ite_mul, zero_mul]

/-- Of a step only its fetch and its prefetch add to the total. -/
theorem Stepped.lat_eq (h : Stepped s t) : t.lat = s.lat + (stepCounts s).latency s.cfg := by
  cases h with
  | halt hrun hpc =>
    rw [stepCounts_of_not_passes fun hpass => hpass.2.2 hpc]
    simp [Counts.latency]
  | boundsError hpass hmiss hout =>
    rw [stepCounts_of_fetchFails hpass hmiss hout]
    simp [Counts.latency, add_assoc]
  | unknownOpcode hpass hfetch | raised hpass hfetch => exact hfetch.lat_eq_stepCounts hpass
  | completed hpass hfetch _ _ hv =>
    rw [← hfetch.lat_eq_stepCounts hpass]
    obtain ⟨m, b, rfl⟩ := hv.frame
    rfl

/-- Settles O32: the latency of the step's counts, written out. -/
theorem latencyOfAStep : Obligations.LatencyOfAStep := by
  intro s t hstep
  rw [(stepped_of_step hstep).lat_eq, stepCounts]
  by_cases hpass : PassesHaltCheck s
  · simp only [if_pos hpass, Counts.latency, one_mul, ite_mul, zero_mul]
  · simp only [if_neg hpass, Counts.latency, zero_mul, add_zero]

/-- With the prefetch a step prefetches as often as it fetches, but where the fetch itself raised. -/
theorem prefetches_of_step (hinv : s.Inv) (hen : s.cfg.prefetchEn = true) (h : Stepped s t) :
    (stepCounts s).prefetches + (if t.fault.code = .programBoundsError then 1 else 0) =
      (stepCounts s).fetches := by
  have hnone := hinv.code_of_running h.run_cases.1
  cases h with
  | halt hrun hpc =>
    rw [stepCounts_of_not_passes fun hpass => hpass.2.2 hpc]
    simp [hnone]
  | boundsError hpass hmiss hout =>
    rw [stepCounts_of_fetchFails hpass hmiss hout]
    simp [FatalError.code]
  | unknownOpcode hpass hfetch =>
    rw [stepCounts_of_fetched hpass hfetch, if_pos hen]
    simp [FatalError.code]
  | raised hpass hfetch _ he =>
    rw [stepCounts_of_fetched hpass hfetch, if_pos hen]
    rcases he.table with ⟨rfl, -⟩ | ⟨a, rfl, -⟩ <;> simp [FatalError.code]
  | completed hpass hfetch _ _ hv =>
    rw [stepCounts_of_fetched hpass hfetch, if_pos hen]
    obtain ⟨l, n, rfl⟩ := hfetch.frame
    simp [hv.fault_eq, hnone]

/-! ## A run -/

theorem runsTo_succ {n : Nat} (h : RunsTo (n + 1) s t) : ∃ u, step s = .next u ∧ RunsTo n u t := by
  unfold RunsTo at h
  cases hstep : step s with
  | next u => exact ⟨u, rfl, by rwa [run_of_next hstep] at h⟩
  | fault r => simp [run_of_fault hstep] at h
  | refused r => simp [run_of_refused hstep] at h

/-- A run that is over takes no further step. -/
theorem eq_of_runsTo_of_ended {n : Nat} (h : RunsTo n s t) (hended : s.run ≠ .running) : n = 0 ∧ t = s := by
  cases n with
  | zero => exact ⟨rfl, (Host.Outcome.next.inj h).symm⟩
  | succ n =>
    obtain ⟨u, hstep, -⟩ := runsTo_succ h
    exact absurd (stepped_of_step hstep).run_cases.1 hended

theorem runCounts_succ (n : Nat) (h : step s = .next u) :
    runCounts (n + 1) s =
      ⟨(stepCounts s).fetches + (runCounts n u).fetches, (stepCounts s).misses + (runCounts n u).misses,
        (stepCounts s).prefetches + (runCounts n u).prefetches⟩ := by
  simp only [runCounts, h]

theorem lat_of_runsTo {n : Nat} (h : RunsTo n s t) : t.lat = s.lat + (runCounts n s).latency s.cfg := by
  induction n generalizing s with
  | zero =>
    obtain rfl := Host.Outcome.next.inj h
    simp [runCounts, Counts.latency]
  | succ n ih =>
    obtain ⟨u, hstep, hrest⟩ := runsTo_succ h
    rw [ih hrest, (stepped_of_step hstep).lat_eq, (programAndParametersAreFixed s u hstep).2,
      runCounts_succ n hstep]
    simp only [Counts.latency]
    ring

theorem prefetches_of_disabled {n : Nat} (h : RunsTo n s t) (hoff : s.cfg.prefetchEn = false) :
    (runCounts n s).prefetches = 0 := by
  induction n generalizing s with
  | zero => rfl
  | succ n ih =>
    obtain ⟨u, hstep, hrest⟩ := runsTo_succ h
    have hrest₀ := ih hrest (by rwa [(programAndParametersAreFixed s u hstep).2])
    have hstep₀ : (stepCounts s).prefetches = 0 := by
      unfold stepCounts
      split <;> simp [hoff]
    rw [runCounts_succ n hstep]
    simp only [hrest₀, hstep₀]

/-- `prefetches_of_step` along a run: only its last step can raise, and before that nothing is recorded. -/
theorem prefetches_of_enabled {n : Nat} (h : RunsTo n s t) (hinv : s.Inv) (hrun : s.run = .running)
    (hen : s.cfg.prefetchEn = true) :
    (runCounts n s).prefetches + (if t.fault.code = .programBoundsError then 1 else 0) =
      (runCounts n s).fetches := by
  induction n generalizing s with
  | zero =>
    obtain rfl := Host.Outcome.next.inj h
    simp [runCounts, hinv.code_of_running hrun]
  | succ n ih =>
    obtain ⟨u, hstep, hrest⟩ := runsTo_succ h
    have hone := prefetches_of_step hinv hen (stepped_of_step hstep)
    have hinv' := stepKeepsTheInvariant s u hinv hstep
    rw [runCounts_succ n hstep]
    dsimp only
    by_cases hu : u.run = .running
    · have hmany := ih hrest hinv' hu (by rwa [(programAndParametersAreFixed s u hstep).2])
      simp only [hinv'.code_of_running hu, reduceCtorEq, if_false] at hone
      omega
    · obtain ⟨rfl, rfl⟩ := eq_of_runsTo_of_ended hrest hu
      simpa [runCounts] using hone

/-- Settles O33, each part by induction on the number of steps. -/
theorem latencyOfARun : Obligations.LatencyOfARun := by
  intro n s t h
  refine ⟨?_, prefetches_of_disabled h, fun hinv hrun hen => ?_⟩
  · rw [lat_of_runsTo h]
    simp only [Counts.latency, add_assoc]
  · have hcount := prefetches_of_enabled h hinv hrun hen
    exact ⟨fun hcode => by rwa [if_neg hcode] at hcount, fun hcode => by rwa [if_pos hcode] at hcount⟩

end Sys2Proof.Machine
end

section
/-! PROOFS. The canonical form of the data memory (log 11): a write keeps it, and it has one list for every
content. -/

namespace Sys2Proof.Machine

theorem Memory.read_cons_same (a : Nat) (v : Word) (m : Memory) : Memory.read ((a, v) :: m) a = v :=
  if_pos rfl

theorem Memory.read_cons_other {a b : Nat} (v : Word) (m : Memory) (hb : b ≠ a) :
    Memory.read ((a, v) :: m) b = Memory.read m b :=
  if_neg hb

/-- A cell before the first one of a canonical list reads 0, and the first one does not. -/
theorem Memory.head_le_of_read_eq {lo lo' a b : Nat} {v u : Word} {m₁ m₂ : Memory}
    (h₁ : Memory.wfFrom lo ((a, v) :: m₁) = true) (h₂ : Memory.wfFrom lo' ((b, u) :: m₂) = true)
    (hread : Memory.read ((a, v) :: m₁) a = Memory.read ((b, u) :: m₂) a) : b ≤ a := by
  obtain ⟨-, hv, -⟩ := (Memory.wfFrom_cons ..).1 h₁
  obtain ⟨-, hu, hm₂⟩ := (Memory.wfFrom_cons ..).1 h₂
  by_contra hlt
  rw [Memory.read_cons_same, Memory.read_cons_other u m₂ (by omega),
    Memory.read_eq_zero_of_lt hm₂ (by omega)] at hread
  exact hv hread

theorem Memory.read_head_ne_zero {lo a : Nat} {v : Word} {m : Memory}
    (h : Memory.wfFrom lo ((a, v) :: m) = true) : Memory.read ((a, v) :: m) a ≠ 0#32 := by
  rw [Memory.read_cons_same]
  exact ((Memory.wfFrom_cons ..).1 h).2.1

/-- Two canonical lists with equal contents begin with the same cell, and their rests have equal contents. -/
theorem Memory.eq_of_read_eq {lo : Nat} {m₁ m₂ : Memory} (h₁ : Memory.wfFrom lo m₁ = true)
    (h₂ : Memory.wfFrom lo m₂ = true) (hread : ∀ a, m₁.read a = m₂.read a) : m₁ = m₂ := by
  induction m₁ generalizing lo m₂ with
  | nil =>
    cases m₂ with
    | nil => rfl
    | cons d m₂ => exact absurd (hread d.1).symm (Memory.read_head_ne_zero h₂)
  | cons c m₁ ih =>
    cases m₂ with
    | nil => exact absurd (hread c.1) (Memory.read_head_ne_zero h₁)
    | cons d m₂ =>
      obtain ⟨a, v⟩ := c
      obtain ⟨b, u⟩ := d
      obtain rfl : a = b :=
        le_antisymm (Memory.head_le_of_read_eq h₂ h₁ (hread b).symm) (Memory.head_le_of_read_eq h₁ h₂ (hread a))
      obtain ⟨-, -, hm₁⟩ := (Memory.wfFrom_cons ..).1 h₁
      obtain ⟨-, -, hm₂⟩ := (Memory.wfFrom_cons ..).1 h₂
      have hhead : v = u := by simpa only [Memory.read_cons_same] using hread a
      have htail : ∀ x, Memory.read m₁ x = Memory.read m₂ x := by
        intro x
        by_cases hx : x = a
        · rw [Memory.read_eq_zero_of_lt hm₁ (by omega), Memory.read_eq_zero_of_lt hm₂ (by omega)]
        · simpa only [Memory.read_cons_other _ _ hx] using hread x
      rw [hhead, ih hm₁ hm₂ htail]

/-- Settles O44. -/
theorem memoriesWithEqualCellsAreEqual : Obligations.MemoriesWithEqualCellsAreEqual :=
  fun _ _ h₁ h₂ hread => Memory.eq_of_read_eq h₁ h₂ hread

/-- Settles O54: a write that does not raise is the write of one cell, which keeps the form. -/
theorem memoryWriteKeepsTheCanonicalForm : Obligations.MemoryWriteKeepsTheCanonicalForm := by
  intro s t a v hwf hwrite
  cases hb : inBounds a s.cfg.memSize with
  | true =>
    obtain rfl : s.setMem _ = t := Except.ok.inj ((memWrite_ok hb).symm.trans hwrite)
    exact Memory.wf_write hwf _ _
  | false => simp [memWrite_error hb] at hwrite

end Sys2Proof.Machine
end

section
/-! PROOFS. Reset and what the host reads out and places (spec/70_reset_and_hazards.md; logs 3 and 14). -/

namespace Sys2Proof.Machine

variable {s : State} {w : InsnWord}

/-- Settles O50: every value is the one `State.resetWith` writes. -/
theorem resetLeavesTheResetValues : Obligations.ResetLeavesTheResetValues := by
  refine ⟨fun cfg prog s hs => ?_, fun s t ht => ?_⟩
  · subst hs
    exact ⟨rfl, rfl, rfl, rfl, fun _ => rfl, rfl, rfl, rfl, rfl, rfl⟩
  · subst ht
    exact ⟨rfl, rfl, rfl, rfl, fun _ => rfl, rfl, rfl, rfl, rfl, rfl⟩

/-! ## The reports -/

theorem length_cells (s : State) : s.cells.length = s.cfg.memSize := by
  rw [State.cells, List.length_map, List.length_range]

theorem getElem?_cells {a : Nat} (ha : a < s.cfg.memSize) : s.cells[a]? = some (s.mem.read a) := by
  rw [State.cells, List.getElem?_map, List.getElem?_range ha, Option.map_some]

/-- Settles O52: which report there is depends on the run state alone. -/
theorem reportsAreReadableAtTheEnd : Obligations.ReportsAreReadableAtTheEnd := by
  intro s
  unfold State.finalReport State.faultReport
  cases s.run with
  | running => simp
  | halted => exact ⟨fun _ => ⟨_, rfl, length_cells s, fun _ ha => getElem?_cells ha⟩, by simp, by simp, by simp⟩
  | faulted => simp

/-! ## A word placed at `pc` -/

theorem getElem?_placeWord (ws : List InsnWord) (p : Nat) (w : InsnWord) : (placeWord ws p w)[p]? = some w := by
  induction ws, p, w using placeWord.induct with
  | case1 w => rfl
  | case2 p w ih => exact ih
  | case3 v ws w => rfl
  | case4 v ws p w ih => exact ih

theorem length_placeWord (ws : List InsnWord) (p : Nat) (w : InsnWord) :
    (placeWord ws p w).length = max ws.length (p + 1) := by
  induction ws, p, w using placeWord.induct with
  | case1 w => rfl
  | case2 p w ih | case4 v ws p w ih =>
    simp only [placeWord, List.length_cons, List.length_nil, ih]
    omega
  | case3 v ws w =>
    simp only [placeWord, List.length_cons]
    omega

theorem inBounds_placeAtPc (s : State) (w : InsnWord) :
    inBounds (placeAtPc s w).pc Config.maxProgLen = true := by
  unfold placeAtPc
  dsimp only
  split
  case isTrue h => exact h
  case isFalse => decide

theorem wordAt_placeAtPc (s : State) (w : InsnWord) : WordAt (placeAtPc s w) (placeAtPc s w).pc w := by
  obtain ⟨h₀, -⟩ := (inBounds_iff ..).1 (inBounds_placeAtPc s w)
  refine ⟨h₀, ?_⟩
  rw [← toNat_of_nonneg h₀]
  exact getElem?_placeWord _ _ w

/-- Log 3: the line of the state made ready never answers for the word placed. -/
theorem not_hits_placeAtPc (s : State) (w : InsnWord) : ¬Hits (placeAtPc s w) := by
  rintro ⟨hvalid, htag⟩
  by_cases hkept : (progLenOk s.prog.length && decide (s.cl.tag ≠ (placeAtPc s w).pc)) = true
  · have hcl : (placeAtPc s w).cl = s.cl := if_pos hkept
    rw [hcl] at htag
    simp [htag] at hkept
  · have hcl : (placeAtPc s w).cl = { s.cl with valid := false } := if_neg hkept
    rw [hcl] at hvalid
    exact Bool.false_ne_true hvalid

theorem wf_cfg_placeAtPc (s : State) (w : InsnWord) : (placeAtPc s w).cfg.wf = true := by
  unfold placeAtPc
  dsimp only
  split
  case isTrue h => exact h
  case isFalse => rfl

theorem progLenOk_placeAtPc (s : State) (w : InsnWord) : progLenOk (placeAtPc s w).prog.length = true := by
  obtain ⟨h₀, h₁⟩ := (inBounds_iff ..).1 (inBounds_placeAtPc s w)
  have hpc := toNat_of_nonneg h₀
  have hlen : (if progLenOk s.prog.length then s.prog else []).length ≤ Config.maxProgLen := by
    split
    case isTrue h => exact of_decide_eq_true h
    case isFalse => exact Nat.zero_le _
  have hplaced : (placeAtPc s w).prog.length = _ := length_placeWord _ (placeAtPc s w).pc.toNat w
  rw [hplaced]
  exact decide_eq_true (by omega)

theorem passes_placeAtPc (s : State) (w : InsnWord) : PassesHaltCheck (placeAtPc s w) := by
  refine ⟨rfl, ?_, fun hpc => ?_⟩
  · rw [configLegal, wf_cfg_placeAtPc, progLenOk_placeAtPc, Bool.and_self]
  · have h₀ := (wordAt_placeAtPc s w).1
    rw [hpc] at h₀
    exact absurd h₀ (by decide)

/-- Settles O53: the state made ready passes the halt check, its line misses and its program holds the word at
`pc`. -/
theorem placedWordRunsNext : Obligations.PlacedWordRunsNext := by
  intro s n i hn hdec
  have hfetch := fetch_of_miss_wordAt (not_hits_placeAtPc s (BitVec.ofNat 40 n)) (wordAt_placeAtPc s _)
  obtain ⟨l, m, hframe⟩ := fetched_frame hfetch
  refine ⟨{ placeAtPc s (BitVec.ofNat 40 n) with cl := l, lat := m }, ?_, rfl, rfl, rfl, rfl⟩
  rw [State.withFetchWord, Nat.mod_eq_of_lt hn, step_of_fetch (passes_placeAtPc s _) hfetch,
    dispatch_of_decode hdec, hframe]

end Sys2Proof.Machine
end
